-- ==== Sys2Proof/Word.lean ====
section
/-! DEFINITION. The two word types of the block: the byte every field and storage element is made of
(`20_memory.md` rule R31) and the 12-bit command word of the trace encoding (`30_encoding.md` rule R57). -/

namespace Sys2Proof

/-- One byte, bit 0 least significant, unsigned (rule R138). -/
abbrev Byte := BitVec 8

/-- One 12-bit command word, `op` in bits 11..8 and `arg` in bits 7..0 (rule R57). -/
abbrev CommandWord := BitVec 12

end Sys2Proof
end

