-- ==== Sys2Proof/Config.lean ====
section
/-! DEFINITION. What is fixed when the block is built (the parameters of `00_scope.md` rule R5), the reference
configuration, and the values the spec leaves open (`any8` of rule R138, the power-up contents of the three
arrays): constants with no body, so that a statement can rest on no value of theirs. -/

namespace Sys2Proof

/-- How the two sides of the queue see each other's index: the parameter `CDC` of rule R5. -/
inductive Cdc where
  /-- Gray-coded synchronised copies, which may lag (rule R37). -/
  | gray
  /-- The source's critical section: both sides see the true indices (rule R36). -/
  | atomic
  deriving DecidableEq, Repr

/-- The three storage spaces of rule R30. -/
inductive Space where
  | buf | packet | outbuf
  deriving DecidableEq, Repr

/-- The build-time parameters of rule R5. The derived ones (`AW`, `P`, `IW`) are computed from these in
`Machine/Params.lean`. A record that breaks the rule's constraints is refused by `step` (U13, U14, U15). -/
structure Config where
  /-- `C`, the number of slots of the queue storage. -/
  cap : Nat
  /-- `MAXPAY`, the maximum payload size in bytes. -/
  maxPay : Nat
  /-- `HDR`, the header signature byte. -/
  hdr : Byte
  /-- `ACK`, a control code. -/
  ack : Byte
  /-- `NAK`, a control code. -/
  nak : Byte
  /-- `IAM`, a control code. -/
  iam : Byte
  /-- `CDC`, the crossing between the two clock domains. -/
  cdc : Cdc
  deriving DecidableEq, Repr

/-- CFG_REF, the reference configuration of rule R5 (decision D10). -/
def Config.ref : Config :=
  { cap := 20, maxPay := 16, hdr := 0xF5, ack := 0xF6, nak := 0xF7, iam := 0xF8, cdc := .gray }

/-- FREE VALUE (U1, log entry 3): the byte `any8` that the failing GET number `n` shows on `get_data`.
It has no body: nothing can be proved of its value. -/
opaque Config.any8 : Nat → Byte

/-- FREE VALUE (U2, U3, log entry 4): the byte that a slot of a storage space holds when nothing has written it
since power-up. It has no body: nothing can be proved of its value. -/
opaque Config.powerUp : Space → Nat → Byte

end Sys2Proof
end

