-- ==== Sys2Proof/Machine/Params.lean ====
section
/-! DEFINITION. What is computed from the parameters: the derived ones, the constraints, the size of each storage
space, and index arithmetic (`00_scope.md` rule R5, `20_memory.md` rule R30, `40_bytequeue.md` rule R76). -/

namespace Sys2Proof

/-- `P = MAXPAY + 3`, the maximum packet size (rule R5). -/
def Config.packetMax (c : Config) : Nat := c.maxPay + 3

/-- `AW = ceil(log2(C))`, at least 1 (rule R5), for `C >= 2`. -/
def Config.indexWidth (c : Config) : Nat := Nat.log2 (c.cap - 1) + 1

/-- `IW = ceil(log2(P + 1))` (rule R5). -/
def Config.writeIndexWidth (c : Config) : Nat := Nat.log2 c.packetMax + 1

/-- The constraints of rule R5; a configuration that breaks one is refused (U13, U14, U15). -/
def Config.legal (c : Config) : Bool :=
  decide (2 ≤ c.cap) && (c.cdc == .atomic || c.cap % 2 == 0) && decide (c.maxPay ≤ 255) &&
  (c.hdr != c.ack && c.hdr != c.nak && c.hdr != c.iam && c.ack != c.nak && c.ack != c.iam && c.nak != c.iam)

/-- The number of slots of a storage space (rule R30). -/
def Config.size (c : Config) : Space → Nat
  | .buf => c.cap
  | .packet => c.packetMax
  | .outbuf => c.packetMax

/-- `inc(a) = (a + 1) mod C` (rule R138). -/
def Config.inc (c : Config) (a : Nat) : Nat := (a + 1) % c.cap

/-- `dist(a, b) = (b - a) mod C`, the single steps from `a` forward to `b` (rule R138). -/
def Config.dist (c : Config) (a b : Nat) : Nat := (b + (c.cap - a % c.cap)) % c.cap

end Sys2Proof
end

