-- ==== Sys2Proof/Syntax.lean ====
section
/-! DEFINITION. The operations of the block, one constructor per row of `spec/opcode_table.json`, and the names
an operation is written with: the decoder's states and results, and the items of a trace. -/

namespace Sys2Proof

/-- The four states of the packet decoder (rule R16). They say what the next byte fed is taken as (rule R52). -/
inductive DecoderState where
  | awaitHeader | awaitLength | awaitPayload | awaitChecksum
  deriving DecidableEq, Repr

/-- The seven results a FEED can hand back (rules R23, R55). -/
inductive DecodeResult where
  | inProgress | packetReceived | ackReceived | nakReceived | iamReceived | sizeError | checksumError
  deriving DecidableEq, Repr

/-- The operations: fourteen command-word rows (rule R58) and five rows of the wire format (rules R50 to R52). -/
inductive Instr where
  /-- `PUT b`: the producer offers one byte to the queue (rule R70). -/
  | put (b : Byte)
  /-- `GET`: the consumer takes one byte from the queue (rule R71). -/
  | get
  /-- `QINIT`: empty the queue (rule R72). -/
  | qinit
  /-- `FEED b`: the consumer gives the decoder one byte (rule R80). -/
  | feed (b : Byte)
  /-- `DINIT`: put the decoder back to idle (rule R86). -/
  | dinit
  /-- `PUMP`: GET and, if it succeeded, FEED of the byte, in one step (rule R87). -/
  | pump
  /-- `SEND`: the whole group of the word `0x7nn` and its `n` DAT words, one operation (rules R59, R95).
  `size` is the length of `payload`. -/
  | send (payload : List Byte)
  /-- `SENDCTL 00`: send the one byte ACK (rule R96). -/
  | sendctlAck
  /-- `SENDCTL 01`: send the one byte NAK (rule R96). -/
  | sendctlNak
  /-- `SENDCTL 02`: send the one byte IAM (rule R96). -/
  | sendctlIam
  /-- A `DAT b` word that is not one of the words after a SEND (rule R60: it spells no operation). The DAT words
  of a SEND are read with it and stand in the payload of `send`. -/
  | dat (b : Byte)
  /-- `SYNCH k`: the read domain's copy of `head` catches up by `k` (rule R73). -/
  | synch (k : Nat)
  /-- `SYNCT k`: the write domain's copy of `tail` catches up by `k` (rule R74). -/
  | synct (k : Nat)
  /-- `SYNCALL`: both copies catch up completely (rule R75). -/
  | syncall
  /-- `PACKET` on the wire: the byte `HDR`, the first byte of a framed packet (rules R50, R81). -/
  | packet
  /-- `ACK` on the wire: a control code, complete in itself (rules R51, R81). -/
  | ack
  /-- `NAK` on the wire (rules R51, R81). -/
  | nak
  /-- `IAM` on the wire (rules R51, R81). -/
  | iam
  /-- `NOISE` on the wire: a byte other than `HDR`, `ACK`, `NAK`, `IAM` while the decoder is idle (rule R62). -/
  | noise (b : Byte)
  deriving DecidableEq, Repr

/-- One item of a trace: what the environment makes happen next. -/
inductive Input where
  /-- A command word (rule R57). -/
  | cw (w : CommandWord)
  /-- A byte of the line given to the decoder port (rules R25, R52). -/
  | wire (b : Byte)
  /-- The hardware reset input `rst` (rules R25, R120). -/
  | rst
  deriving DecidableEq, Repr

end Sys2Proof
end

