-- ==== Sys2Proof/Machine/Operands.lean ====
section
/-! DEFINITION. The operand and message forms of the spec: the wire format of a framed packet and its checksum
(`30_encoding.md` rules R50, R54), the control codes (rule R51), the length byte as a number (rule R65), and the
numeric codes of results and states (rules R55, R56). -/

namespace Sys2Proof

/-- `XOR(list)`: the exclusive-or of all bytes, `0x00` for the empty list (rules R54, R138). -/
def xorBytes : List Byte → Byte
  | [] => 0
  | b :: rest => b ^^^ xorBytes rest

/-- The framed packet of a payload (rules R50, R95): header, length, payload, checksum. -/
def frame (c : Config) (payload : List Byte) : List Byte :=
  [c.hdr, BitVec.ofNat 8 payload.length] ++ payload ++ [xorBytes payload]

/-- The length byte as an unsigned number wide enough that `L + 3` does not wrap (rule R65). -/
abbrev declaredLength (b : Byte) : Nat := b.toNat

/-- `b >u MAXPAY` (rules R65, R82). -/
def exceedsMax (c : Config) (b : Byte) : Bool := decide (c.maxPay < declaredLength b)

/-- A message of the line, as a decoder that starts idle finds it (rule R53). -/
inductive Message where
  /-- A control code, with the result that announces it. -/
  | control (result : DecodeResult)
  /-- A byte that starts no message. -/
  | noise (b : Byte)
  /-- A header and a length byte above `MAXPAY`: cut off after two bytes. -/
  | oversize (length : Byte)
  /-- A framed packet with the right checksum byte. -/
  | packet (payload : List Byte)
  /-- A framed packet with a wrong checksum byte. -/
  | corrupt (payload : List Byte) (received : Byte)
  /-- The bytes end inside a message. -/
  | incomplete
  deriving DecidableEq, Repr

/-- What follows a header byte: the length, that many payload bytes, and one checksum byte (rules R50, R53). -/
def readFrame (c : Config) : List Byte → Message × List Byte
  | [] => (.incomplete, [])
  | len :: rest =>
    if exceedsMax c len then (.oversize len, rest)
    else
      match rest.drop (declaredLength len) with
      | [] => (.incomplete, [])
      | chk :: left =>
        let payload := rest.take (declaredLength len)
        (if chk = xorBytes payload then .packet payload else .corrupt payload chk, left)

/-- The message at the front of a byte stream and the bytes after it (rule R53). -/
def readMessage (c : Config) : List Byte → Message × List Byte
  | [] => (.incomplete, [])
  | b :: rest =>
    if b = c.hdr then readFrame c rest
    else if b = c.ack then (.control .ackReceived, rest)
    else if b = c.nak then (.control .nakReceived, rest)
    else if b = c.iam then (.control .iamReceived, rest)
    else (.noise b, rest)

/-- The result that the last byte of a message hands back (rules R81 to R84). -/
def Message.result : Message → DecodeResult
  | .control r => r
  | .noise _ => .inProgress
  | .oversize _ => .sizeError
  | .packet _ => .packetReceived
  | .corrupt _ _ => .checksumError
  | .incomplete => .inProgress

/-- The 3-bit code of a result (rule R55). -/
def DecodeResult.code : DecodeResult → BitVec 3
  | .inProgress => 0
  | .packetReceived => 1
  | .ackReceived => 2
  | .nakReceived => 3
  | .iamReceived => 4
  | .sizeError => 5
  | .checksumError => 6

/-- The 2-bit code of a decoder state (rule R56). -/
def DecoderState.code : DecoderState → BitVec 2
  | .awaitHeader => 0
  | .awaitLength => 1
  | .awaitPayload => 2
  | .awaitChecksum => 3

end Sys2Proof
end

