-- ==== Sys2Proof/WellFormed.lean ====
section
/-! DEFINITION. Which operations have an encoding: the operand bounds of rules R57 to R60 and R73, and the class of
a NOISE byte (rule R52). That `SEND` also needs `size <= MAXPAY` is checked by its meaning (rule R130), and that
`SYNCH k` is enabled is checked by its (rule R73): both depend on the state of the block. -/

namespace Sys2Proof

/-- Is `b` one of the four start-of-message bytes of rule R52? -/
def Config.isStartByte (c : Config) (b : Byte) : Bool :=
  b == c.hdr || b == c.ack || b == c.nak || b == c.iam

/-- The operands of `i` fit its encoding. -/
def Instr.wf (c : Config) : Instr → Bool
  | .send payload => decide (payload.length ≤ 255)
  | .synch k => decide (k ≤ 255)
  | .synct k => decide (k ≤ 255)
  | .noise b => !c.isStartByte b
  | .put _ | .get | .qinit | .feed _ | .dinit | .pump | .sendctlAck | .sendctlNak | .sendctlIam | .dat _
  | .syncall | .packet | .ack | .nak | .iam => true

end Sys2Proof
end

