-- ==== Sys2Proof/Decode.lean ====
section
/-! DEFINITION. Reading one operation off the front of a trace (total, rejecting by name: rules R57 to R60 and, for
bytes of the line, R52), and the encoder written from the same tables. -/

namespace Sys2Proof

/-- Why the front of a trace spells no operation (rule R60). -/
inductive DecodeError where
  /-- `op` is 0x0, 0xD, 0xE or 0xF. -/
  | reservedOp (w : CommandWord)
  /-- A nonzero `arg` on GET, QINIT, DINIT, PUMP or SYNCALL, or a SENDCTL selector of 3 or more. -/
  | reservedArg (w : CommandWord)
  /-- A `SEND n` followed by fewer than `n` DAT words. -/
  | shortSend (n : Nat)
  /-- Nothing to read, or the reset input, which is no operation. -/
  | noOperation
  deriving DecidableEq, Repr

/-- `op = cw[11:8]` (rule R57). -/
def opField (w : CommandWord) : BitVec 4 := w.extractLsb' 8 4

/-- `arg = cw[7:0]` (rule R57). -/
def argField (w : CommandWord) : Byte := w.extractLsb' 0 8

/-- The command word with the fields `op` and `arg` (rule R57). -/
def commandWord (op : BitVec 4) (arg : Byte) : CommandWord := op ++ arg

/-- An operation whose `arg` must be 0x00 (rules R58, R60). -/
def decodeBare (w : CommandWord) (i : Instr) (rest : List Input) : Except DecodeError (Instr × List Input) :=
  if argField w = 0 then .ok (i, rest) else .error (.reservedArg w)

/-- The three selectors of SENDCTL (rule R96); the others are reserved (rule R60). -/
def decodeSendctl (w : CommandWord) (rest : List Input) : Except DecodeError (Instr × List Input) :=
  if argField w = 0 then .ok (.sendctlAck, rest)
  else if argField w = 1 then .ok (.sendctlNak, rest)
  else if argField w = 2 then .ok (.sendctlIam, rest)
  else .error (.reservedArg w)

/-- Exactly `n` DAT words from the front of a trace: their bytes in order and what is left (rule R59). -/
def takeDats : Nat → List Input → Option (List Byte × List Input)
  | 0, rest => some ([], rest)
  | n + 1, .cw w :: rest =>
    if opField w = 9 then
      match takeDats n rest with
      | some (payload, left) => some (argField w :: payload, left)
      | none => none
    else none
  | _ + 1, _ => none

/-- `SEND n` and its `n` DAT words (rule R59). -/
def decodeSend (w : CommandWord) (rest : List Input) : Except DecodeError (Instr × List Input) :=
  match takeDats (argField w).toNat rest with
  | some (payload, left) => .ok (.send payload, left)
  | none => .error (.shortSend (argField w).toNat)

/-- The operation that starts with the command word `w` (rule R58). -/
def decodeCommand (w : CommandWord) (rest : List Input) : Except DecodeError (Instr × List Input) :=
  match (opField w).toNat with
  | 0x1 => .ok (.put (argField w), rest)
  | 0x2 => decodeBare w .get rest
  | 0x3 => decodeBare w .qinit rest
  | 0x4 => .ok (.feed (argField w), rest)
  | 0x5 => decodeBare w .dinit rest
  | 0x6 => decodeBare w .pump rest
  | 0x7 => decodeSend w rest
  | 0x8 => decodeSendctl w rest
  | 0x9 => .ok (.dat (argField w), rest)
  | 0xA => .ok (.synch (argField w).toNat, rest)
  | 0xB => .ok (.synct (argField w).toNat, rest)
  | 0xC => decodeBare w .syncall rest
  | _ => .error (.reservedOp w)

/-- The class of a byte of the line while the decoder is idle (rule R52, row AwaitHeader). -/
def classifyStart (c : Config) (b : Byte) : Instr :=
  if b = c.hdr then .packet
  else if b = c.ack then .ack
  else if b = c.nak then .nak
  else if b = c.iam then .iam
  else .noise b

/-- A byte of the line: how it is classed depends on the decoder's state alone (rule R52). While idle it is a
start-of-message byte; in the other three states no value has a meaning of its own and the byte is simply fed. -/
def decodeWire (c : Config) (st : DecoderState) (b : Byte) : Instr :=
  if st = .awaitHeader then classifyStart c b else .feed b

/-- The operation at the front of a trace and the rest of the trace. -/
def decode (c : Config) (st : DecoderState) : List Input → Except DecodeError (Instr × List Input)
  | .cw w :: rest => decodeCommand w rest
  | .wire b :: rest => .ok (decodeWire c st b, rest)
  | .rst :: _ => .error .noOperation
  | [] => .error .noOperation

/-- The trace items that spell `i`, from the table of rule R58 and the wire format of rule R50. -/
def encode (c : Config) : Instr → List Input
  | .put b => [.cw (commandWord 0x1 b)]
  | .get => [.cw (commandWord 0x2 0)]
  | .qinit => [.cw (commandWord 0x3 0)]
  | .feed b => [.cw (commandWord 0x4 b)]
  | .dinit => [.cw (commandWord 0x5 0)]
  | .pump => [.cw (commandWord 0x6 0)]
  | .send payload =>
    .cw (commandWord 0x7 (BitVec.ofNat 8 payload.length)) :: payload.map fun b => .cw (commandWord 0x9 b)
  | .sendctlAck => [.cw (commandWord 0x8 0)]
  | .sendctlNak => [.cw (commandWord 0x8 1)]
  | .sendctlIam => [.cw (commandWord 0x8 2)]
  | .dat b => [.cw (commandWord 0x9 b)]
  | .synch k => [.cw (commandWord 0xA (BitVec.ofNat 8 k))]
  | .synct k => [.cw (commandWord 0xB (BitVec.ofNat 8 k))]
  | .syncall => [.cw (commandWord 0xC 0)]
  | .packet => [.wire c.hdr]
  | .ack => [.wire c.ack]
  | .nak => [.wire c.nak]
  | .iam => [.wire c.iam]
  | .noise b => [.wire b]

/-- How a row of the opcode table is laid out as a trace: a row of one byte is a byte of the line, a wider one a
12-bit command word (the table gives bits 15..12 of its two bytes to nothing). No operand words follow: a DAT word
is never all zeros. -/
def tableInputs (nbits w : Nat) : List Input :=
  if nbits ≤ 8 then [.wire (BitVec.ofNat 8 w)] else [.cw (BitVec.ofNat 12 w)]

/-- The instruction the decoder reads from a row of the opcode table, under CFG_REF and with the decoder idle, as
the table's wire rows are defined. -/
def decodeTableWord (nbits w : Nat) : Option Instr :=
  match decode Config.ref .awaitHeader (tableInputs nbits w) with
  | .ok (i, _) => some i
  | .error _ => none

end Sys2Proof
end

