-- ==== Sys2Proof/Machine/State.lean ====
section
/-! DEFINITION. Everything the spec gives the block (rules R10 to R22), as plain data, and the state after reset
(rules R27, R120). -/

namespace Sys2Proof.Machine

/-- A storage space: the slots written since power-up, by strictly rising index (`Memory.wf`). An index that is
not listed holds the unspecified byte `Config.powerUp` (U2, U3), so no byte a store can write is the one an
unlisted index reads as, and a store always lists its slot. -/
abbrev Memory := List Host.Cell

/-- The four error conditions of rule R100. -/
inductive BlockError where
  | queueFull | queueEmpty | sizeError | checksumError
  deriving DecidableEq, Repr

/-- What the ports show for the last step (rules R23, R25). A status lasts for its operation only: every step
overwrites it and no operation reads it. -/
inductive Ports where
  /-- No status: after reset, QINIT, DINIT and the synchroniser steps. -/
  | quiet
  /-- `put_ok`. -/
  | put (ok : Bool)
  /-- `get_ok` and `get_data`. -/
  | get (ok : Bool) (data : Byte)
  /-- `result` of a FEED; `result_valid` is 1 (`State.resultValid`, log entry 18). -/
  | feed (result : DecodeResult)
  /-- `get_ok` and `result` of a PUMP. -/
  | pump (ok : Bool) (result : DecodeResult)
  /-- The one call `send(bytes, length)` of the transport-send collaborator (rules R95, R96). -/
  | send (bytes : List Byte)
  deriving DecidableEq, Repr

/-- Why a step stops with a fault. -/
inductive Fault where
  /-- Raised by `memRead` and `memWrite` for an index outside its array. Rule R32 says no access falls outside: no
  state that keeps `Safety.Inv` raises it (obligation `SafeStatesNeverFault`). Safe. -/
  | outsideArray (sp : Space) (index : Nat)
  deriving DecidableEq, Repr

/-- Why the model gives a step no meaning. -/
inductive Refusal where
  /-- Raised by `exec` for an instruction that has no meaning yet. Safe. -/
  | notModelled (mnemonic : String)
  /-- Raised by `step`: the front of the trace is reserved (rule R60, U10). Safe. -/
  | reserved (why : DecodeError)
  /-- Raised by DAT standing alone (rule R60, U10). Safe. -/
  | strayDat
  /-- Raised by SEND with `size > MAXPAY` (rules R95, R130, U7). Safe. -/
  | payloadTooLong
  /-- Raised by SYNCH and SYNCT with `k` above the lag (rules R73, R74, U16). Safe. -/
  | syncNotEnabled
  /-- Raised by `step`: the parameters break a constraint of rule R5 (U13, U14, U15). Safe. -/
  | illegalConfig
  deriving DecidableEq, Repr

/-- The block. -/
structure State where
  /-- The build-time parameters; no step writes them (rule R24). -/
  cfg : Config
  /-- Queue storage, `C` slots (rule R10). -/
  buf : Memory
  /-- Next write slot (rule R11). -/
  head : Nat
  /-- Next read slot (rule R12). -/
  tail : Nat
  /-- `head_rd`, the read domain's copy of `head`; present with `CDC = gray` (rule R14). Read it through
  `State.headSeen`. -/
  headRd : Nat
  /-- `tail_wr`, the write domain's copy of `tail`; present with `CDC = gray` (rule R14). Read it through
  `State.tailSeen`. -/
  tailWr : Nat
  /-- The decoder's state (rule R16). -/
  state : DecoderState
  /-- Assembly buffer, `P` bytes (rule R17). -/
  packet : Memory
  /-- Index into `packet` (rule R18). -/
  writeIndex : Nat
  /-- Running exclusive-or of the payload (rule R19). -/
  checksum : Byte
  /-- Output buffer, `P` bytes (rule R20). -/
  outbuf : Memory
  /-- Every byte handed to transport-send since reset, in order; the environment's (rule R22). -/
  txlog : List Byte
  /-- MODEL'S OWN (log entry 2): the outputs of the last step. -/
  ports : Ports
  /-- MODEL'S OWN (log entry 1): what the environment makes happen next, in order. -/
  inputs : List Input
  /-- MODEL'S OWN (log entry 3): how many free bytes failing GETs have drawn. -/
  draws : Nat
  deriving DecidableEq, Repr

/-- The block right after reset (rules R27, R120), built with CFG_REF (log entry 5), with no slot of an array
written and with nothing requested. -/
def State.reset : State :=
  { cfg := Config.ref
    buf := [], head := 0, tail := 0, headRd := 0, tailWr := 0
    state := .awaitHeader, packet := [], writeIndex := 0, checksum := 0, outbuf := []
    txlog := [], ports := .quiet, inputs := [], draws := 0 }

end Sys2Proof.Machine
end

