-- ==== Sys2Proof/Machine/Flags.lean ====
section
/-! DEFINITION. The block's flags: what each side sees of the other's index (`10_state.md` rule R14), the two level
outputs and the status outputs of the last step (rule R23). All are functions of the state; none is state. -/

namespace Sys2Proof.Machine

/-- What the read domain sees of `head`: the copy `head_rd` with `CDC = gray`, `head` itself with `CDC = atomic`
(rule R14). -/
def State.headSeen (s : State) : Nat :=
  match s.cfg.cdc with
  | .gray => s.headRd
  | .atomic => s.head

/-- What the write domain sees of `tail`: the copy `tail_wr` with `CDC = gray`, `tail` itself with `CDC = atomic`
(rule R14). -/
def State.tailSeen (s : State) : Nat :=
  match s.cfg.cdc with
  | .gray => s.tailWr
  | .atomic => s.tail

/-- `full_w`: a PUT now would fail (rule R23). -/
def State.fullW (s : State) : Bool := s.cfg.inc s.head == s.tailSeen

/-- `empty_r`: a GET now would fail (rule R23). -/
def State.emptyR (s : State) : Bool := s.tail == s.headSeen

/-- `put_ok` of the last step, if it was a PUT (rule R23). -/
def State.putOk (s : State) : Option Bool :=
  match s.ports with
  | .put ok => some ok
  | .quiet | .get _ _ | .feed _ | .pump _ _ | .send _ => none

/-- `get_ok` of the last step, if it was a GET or a PUMP (rule R23). -/
def State.getOk (s : State) : Option Bool :=
  match s.ports with
  | .get ok _ => some ok
  | .pump ok _ => some ok
  | .quiet | .put _ | .feed _ | .send _ => none

/-- `get_data` of the last step, if it was a GET (rule R23). -/
def State.getData (s : State) : Option Byte :=
  match s.ports with
  | .get _ data => some data
  | .quiet | .put _ | .feed _ | .pump _ _ | .send _ => none

/-- `result` of the last step, if it was a FEED or a PUMP (rule R23). After a PUMP that fed nothing it is the InProgress
that rule R87 puts there, the answer to no byte. -/
def State.result (s : State) : Option DecodeResult :=
  match s.ports with
  | .feed r => some r
  | .pump _ r => some r
  | .quiet | .put _ | .get _ _ | .send _ => none

/-- `result_valid` of the decoder port (rule R25). DESIGN CHOICE (log entry 18): the spec only names this output and
does not say when it is 1; the model takes it as 1 exactly for a step that fed a byte at the decoder port, so not for
a PUMP, whose port has no such output. -/
def State.resultValid (s : State) : Bool :=
  match s.ports with
  | .feed _ => true
  | .quiet | .put _ | .get _ _ | .pump _ _ | .send _ => false

end Sys2Proof.Machine
end

