-- ==== Sys2Proof/Machine/Ops.lean ====
section
/-! DEFINITION. The named operations over storage and registers that every meaning is made of: reading and writing a
slot (`20_memory.md` rules R30 to R33), the synchronised copies (`10_state.md` rule R14), handing back a status
(rule R23), taking an error (`60_exceptions.md` rule R109), and handing bytes to the transport (rule R22). -/

namespace Sys2Proof.Machine

/-- A computation of the block: it ends with a value, a fault or a refusal. -/
abbrev Run (α : Type) := Host.Outcome α Fault Refusal

/-- Go on with the value of `o`, or stop as it stopped. -/
def andThen {α β : Type} (o : Run α) (k : α → Run β) : Run β :=
  match o with
  | .next a => k a
  | .fault f => .fault f
  | .refused r => .refused r

/-- The byte listed for an index, if the slot has been written since power-up. -/
def Memory.find (m : Memory) (a : Nat) : Option Byte :=
  match m with
  | [] => none
  | (x, v) :: rest => if x = a then some v else Memory.find rest a

/-- Write one slot, keeping the list by rising index. -/
def Memory.store (m : Memory) (a : Nat) (v : Byte) : Memory :=
  match m with
  | [] => [(a, v)]
  | (x, w) :: rest =>
    if a < x then (a, v) :: (x, w) :: rest
    else if a = x then (a, v) :: rest
    else (x, w) :: Memory.store rest a v

/-- Every listed index is at least `lo`, and the indices rise strictly. -/
def Memory.risingFrom (lo : Nat) (m : Memory) : Bool :=
  match m with
  | [] => true
  | (a, _) :: rest => decide (lo ≤ a) && Memory.risingFrom (a + 1) rest

/-- The canonical form: strictly rising indices. -/
def Memory.wf (m : Memory) : Bool := Memory.risingFrom 0 m

/-- Every listed index is below `n`. -/
def Memory.within (n : Nat) (m : Memory) : Bool := m.all fun c => decide (c.1 < n)

/-- The storage space `sp` of the block (rule R30). -/
def State.mem (s : State) : Space → Memory
  | .buf => s.buf
  | .packet => s.packet
  | .outbuf => s.outbuf

/-- The block with another content of the storage space `sp`. -/
def State.setMem (s : State) (sp : Space) (m : Memory) : State :=
  match sp with
  | .buf => { s with buf := m }
  | .packet => { s with packet := m }
  | .outbuf => { s with outbuf := m }

/-- The byte a slot holds: the last one written, or the unspecified power-up byte (U2, U3). -/
def State.byteAt (s : State) (sp : Space) (a : Nat) : Byte :=
  ((s.mem sp).find a).getD (Config.powerUp sp a)

/-- The output buffer port: `out_data = outbuf[out_addr]` (rule R25). Beyond the last slot the spec states no
value, and the read gives a free one (log entry 4). -/
def State.outData (s : State) (outAddr : Nat) : Byte := s.byteAt .outbuf outAddr

/-- `MemRead(a, 1)`, defined inside the array (rules R32, R138). -/
def memRead (sp : Space) (a : Nat) (s : State) : Run Byte :=
  if a < s.cfg.size sp then .next (s.byteAt sp a) else .fault (.outsideArray sp a)

/-- `MemWrite(a, 1, v)`, defined inside the array (rules R32, R138). -/
def memWrite (sp : Space) (a : Nat) (v : Byte) (s : State) : Run State :=
  if a < s.cfg.size sp then .next (s.setMem sp ((s.mem sp).store a v)) else .fault (.outsideArray sp a)

/-- Write `head_rd`. With `CDC = atomic` there is no such register and nothing is written (rule R14). -/
def State.setHeadRd (s : State) (v : Nat) : State :=
  match s.cfg.cdc with
  | .gray => { s with headRd := v }
  | .atomic => s

/-- Write `tail_wr`. With `CDC = atomic` there is no such register and nothing is written (rule R14). -/
def State.setTailWr (s : State) (v : Nat) : State :=
  match s.cfg.cdc with
  | .gray => { s with tailWr := v }
  | .atomic => s

/-- Hand back the outputs of this operation (rule R23). -/
def State.report (s : State) (p : Ports) : State := { s with ports := p }

/-- TAKING AN ERROR, in full (rule R109): QueueFull and QueueEmpty change nothing; SizeError and ChecksumError put
the decoder back in AwaitHeader. Nothing is saved, no mode or mask changes, and control goes nowhere: the error is
the status that the operation hands back. There is no return from an error (rule R110): the block is already ready
for the next operation. -/
def takeError (e : BlockError) (s : State) : State :=
  match e with
  | .queueFull | .queueEmpty => s
  | .sizeError | .checksumError => { s with state := .awaitHeader }

/-- `emit(list)` as one call of transport-send: append to `txlog` and show the call (rules R22, R138). -/
def emit (bytes : List Byte) (s : State) : State :=
  { s with txlog := s.txlog ++ bytes, ports := .send bytes }

/-- Empty the queue (rule R72): the four indices to 0, `buf` not cleared. -/
def clearQueue (s : State) : State :=
  State.setTailWr (State.setHeadRd { s with head := 0, tail := 0 } 0) 0

/-- Put the decoder back to idle (rule R86): `packet` and `outbuf` not written. -/
def idleDecoder (s : State) : State :=
  { s with state := .awaitHeader, writeIndex := 0, checksum := 0 }

/-- Hardware reset (rule R120): QINIT and DINIT as one step, and the observation of `txlog` starts afresh. The
storage spaces keep what they hold. -/
def hardwareReset (s : State) : State :=
  State.report { idleDecoder (clearQueue s) with txlog := [] } .quiet

end Sys2Proof.Machine
end

