-- ==== Sys2Proof/Machine/Queue.lean ====
section
/-! DEFINITION. The meanings of the ByteQueue operations: PUT, GET, QINIT, SYNCH, SYNCT, SYNCALL
(`40_bytequeue.md` rules R70 to R75). -/

namespace Sys2Proof.Machine

/-- PUT (rule R70): a queue seen full drops the byte; otherwise the byte goes to the old `head` slot. -/
def execPut (b : Byte) (s : State) : Run State :=
  if s.fullW then .next ((takeError .queueFull s).report (.put false))
  else andThen (memWrite .buf s.head b s) fun t =>
    .next (State.report { t with head := s.cfg.inc s.head } (.put true))

/-- What GET and PUMP do to the queue (rule R71): the byte taken, if there is one, and the queue after it. -/
def takeByte (s : State) : Run (Option Byte × State) :=
  if s.emptyR then .next (none, takeError .queueEmpty s)
  else andThen (memRead .buf s.tail s) fun v => .next (some v, { s with tail := s.cfg.inc s.tail })

/-- GET (rule R71). On an empty queue `get_data` is a fresh free byte (U1). -/
def execGet (s : State) : Run State :=
  andThen (takeByte s) fun r =>
    match r with
    | (some v, t) => .next (t.report (.get true v))
    | (none, t) => .next (State.report { t with draws := t.draws + 1 } (.get false (Config.any8 t.draws)))

/-- QINIT (rule R72). -/
def execQinit (s : State) : Run State := .next ((clearQueue s).report .quiet)

/-- SYNCH (rule R73): enabled when `k` is at most the lag of `head_rd`. -/
def execSynch (k : Nat) (s : State) : Run State :=
  if k ≤ s.cfg.dist s.headSeen s.head then
    .next ((s.setHeadRd ((s.headSeen + k) % s.cfg.cap)).report .quiet)
  else .refused .syncNotEnabled

/-- SYNCT (rule R74): enabled when `k` is at most the lag of `tail_wr`. -/
def execSynct (k : Nat) (s : State) : Run State :=
  if k ≤ s.cfg.dist s.tailSeen s.tail then
    .next ((s.setTailWr ((s.tailSeen + k) % s.cfg.cap)).report .quiet)
  else .refused .syncNotEnabled

/-- SYNCALL (rule R75): always enabled. -/
def execSyncall (s : State) : Run State :=
  .next (((s.setHeadRd s.head).setTailWr s.tail).report .quiet)

end Sys2Proof.Machine
end

