-- ==== Sys2Proof/Machine/Decoder.lean ====
section
/-! DEFINITION. The meanings of the PacketDecoder operations: FEED by the state it is taken in, DINIT, PUMP
(`41_packetdecoder.md` rules R80 to R87). Every read of a step sees the value from before the step (rule R138). -/

namespace Sys2Proof.Machine

/-- FEED in AwaitHeader (rule R81). -/
def feedHeader (b : Byte) (s : State) : Run (DecodeResult × State) :=
  if b = s.cfg.hdr then
    andThen (memWrite .packet 0 b s) fun t => .next (.inProgress, { t with state := .awaitLength })
  else if b = s.cfg.ack then .next (.ackReceived, s)
  else if b = s.cfg.nak then .next (.nakReceived, s)
  else if b = s.cfg.iam then .next (.iamReceived, s)
  else .next (.inProgress, s)

/-- FEED in AwaitLength (rule R82). A length of 0 goes straight to the checksum byte (conflict C1). -/
def feedLength (b : Byte) (s : State) : Run (DecodeResult × State) :=
  andThen (memWrite .packet 1 b s) fun t =>
    if exceedsMax s.cfg b then .next (.sizeError, takeError .sizeError t)
    else
      .next (.inProgress,
        { t with checksum := 0, writeIndex := 2, state := if b = 0 then .awaitChecksum else .awaitPayload })

/-- FEED in AwaitPayload (rule R83). -/
def feedPayload (b : Byte) (s : State) : Run (DecodeResult × State) :=
  andThen (memRead .packet 1 s) fun len =>
    andThen (memWrite .packet s.writeIndex b s) fun t =>
      .next (.inProgress,
        { t with
          checksum := s.checksum ^^^ b
          writeIndex := s.writeIndex + 1
          state := if s.writeIndex + 1 = declaredLength len + 2 then .awaitChecksum else .awaitPayload })

/-- Copy `packet[0 .. n-1]` to `outbuf[0 .. n-1]`, byte by byte (rule R84). -/
def copyOut : Nat → State → Run State
  | 0, s => .next s
  | n + 1, s =>
    andThen (copyOut n s) fun t => andThen (memRead .packet n t) fun v => memWrite .outbuf n v t

/-- FEED in AwaitChecksum (rule R84): the copy includes the checksum byte just stored. -/
def feedChecksum (b : Byte) (s : State) : Run (DecodeResult × State) :=
  andThen (memRead .packet 1 s) fun len =>
    andThen (memWrite .packet s.writeIndex b s) fun t =>
      if b = s.checksum then
        andThen (copyOut (declaredLength len + 3) t) fun u =>
          .next (.packetReceived, { u with state := .awaitHeader })
      else .next (.checksumError, takeError .checksumError t)

/-- FEED (rule R80): dispatch on the decoder's state, nothing else. -/
def feedByte (b : Byte) (s : State) : Run (DecodeResult × State) :=
  match s.state with
  | .awaitHeader => feedHeader b s
  | .awaitLength => feedLength b s
  | .awaitPayload => feedPayload b s
  | .awaitChecksum => feedChecksum b s

/-- FEED of a byte with its result handed back at the decoder port. -/
def feedAndReport (b : Byte) (s : State) : Run State :=
  andThen (feedByte b s) fun r => .next (r.2.report (.feed r.1))

/-- FEED (rule R80). -/
def execFeed (b : Byte) (s : State) : Run State := feedAndReport b s

/-- DINIT (rule R86). -/
def execDinit (s : State) : Run State := .next ((idleDecoder s).report .quiet)

/-- PUMP (rule R87): GET and, if it succeeded, FEED of the byte. On an empty queue nothing is fed and the result
field carries InProgress. -/
def execPump (s : State) : Run State :=
  andThen (takeByte s) fun r =>
    match r with
    | (none, t) => .next (t.report (.pump false .inProgress))
    | (some v, t) => andThen (feedByte v t) fun q => .next (q.2.report (.pump true q.1))

end Sys2Proof.Machine
end

