-- ==== Sys2Proof/Machine/Encoder.lean ====
section
/-! DEFINITION. The meanings of the PacketEncoder operations: SEND, DAT, SENDCTL (`42_packetencoder.md` rules R95,
R96; `30_encoding.md` rule R60). The encoder keeps no state (rule R98). -/

namespace Sys2Proof.Machine

/-- SEND (rule R95). A size above `MAXPAY` is given no meaning and refused (U7). -/
def execSend (payload : List Byte) (s : State) : Run State :=
  if payload.length ≤ s.cfg.maxPay then .next (emit (frame s.cfg payload) s) else .refused .payloadTooLong

/-- SENDCTL 0 (rule R96). -/
def execSendctlAck (s : State) : Run State := .next (emit [s.cfg.ack] s)

/-- SENDCTL 1 (rule R96). -/
def execSendctlNak (s : State) : Run State := .next (emit [s.cfg.nak] s)

/-- SENDCTL 2 (rule R96). -/
def execSendctlIam (s : State) : Run State := .next (emit [s.cfg.iam] s)

/-- A DAT word outside a SEND spells no operation and is refused (rule R60, U10). -/
def execDat (_b : Byte) (_s : State) : Run State := .refused .strayDat

end Sys2Proof.Machine
end

