-- ==== Sys2Proof/Machine/Wire.lean ====
section
/-! DEFINITION. The meanings of the wire rows: a byte of the line given to the decoder port. While the decoder is
idle it is a start-of-message byte (`41_packetdecoder.md` rule R81); in another state the same byte is plain data
(`30_encoding.md` rule R62), so each meaning is the FEED of its byte. -/

namespace Sys2Proof.Machine

/-- PACKET: the header byte `HDR` arrives (rule R81). The bytes after it are fed by rules R82 to R84. -/
def execPacket (s : State) : Run State := feedAndReport s.cfg.hdr s

/-- ACK arrives (rules R51, R81). -/
def execAck (s : State) : Run State := feedAndReport s.cfg.ack s

/-- NAK arrives (rules R51, R81). -/
def execNak (s : State) : Run State := feedAndReport s.cfg.nak s

/-- IAM arrives (rules R51, R81). -/
def execIam (s : State) : Run State := feedAndReport s.cfg.iam s

/-- A byte that starts no message arrives (rule R62). -/
def execNoise (b : Byte) (s : State) : Run State := feedAndReport b s

end Sys2Proof.Machine
end

