-- ==== Sys2Proof/Machine/Dispatch.lean ====
section
/-! DEFINITION. One arm per constructor of Instr: the meaning each operation has. -/

namespace Sys2Proof.Machine

def exec (i : Instr) (s : State) : Host.Outcome State Fault Refusal :=
  match i with
  | .put b => Sys2Proof.Machine.execPut b s
  | .get => Sys2Proof.Machine.execGet s
  | .qinit => Sys2Proof.Machine.execQinit s
  | .feed b => Sys2Proof.Machine.execFeed b s
  | .dinit => Sys2Proof.Machine.execDinit s
  | .pump => Sys2Proof.Machine.execPump s
  | .send payload => Sys2Proof.Machine.execSend payload s
  | .sendctlAck => Sys2Proof.Machine.execSendctlAck s
  | .sendctlNak => Sys2Proof.Machine.execSendctlNak s
  | .sendctlIam => Sys2Proof.Machine.execSendctlIam s
  | .dat b => Sys2Proof.Machine.execDat b s
  | .synch k => Sys2Proof.Machine.execSynch k s
  | .synct k => Sys2Proof.Machine.execSynct k s
  | .syncall => Sys2Proof.Machine.execSyncall s
  | .packet => Sys2Proof.Machine.execPacket s
  | .ack => Sys2Proof.Machine.execAck s
  | .nak => Sys2Proof.Machine.execNak s
  | .iam => Sys2Proof.Machine.execIam s
  | .noise b => Sys2Proof.Machine.execNoise b s

end Sys2Proof.Machine
end

