-- ==== Sys2Proof/Machine/Step.lean ====
section
/-! DEFINITION. One step of the block: the next thing the environment makes happen (`00_scope.md` rules R7, R8). -/

namespace Sys2Proof.Machine

/-- One step. The block has no program counter: the next operation is the one at the front of `inputs`, whatever
agent takes it. The reset input is the step of rule R120. With nothing requested nothing happens. A configuration
that breaks rule R5 is refused, and so is a trace whose front spells no operation (rule R60). -/
def step (s : State) : Host.Outcome State Fault Refusal :=
  if s.cfg.legal then
    match s.inputs with
    | [] => .next (s.report .quiet)
    | .rst :: rest => .next (hardwareReset { s with inputs := rest })
    | item :: rest =>
      match decode s.cfg s.state (item :: rest) with
      | .ok (i, left) => exec i { s with inputs := left }
      | .error e => .refused (.reserved e)
  else .refused .illegalConfig

/-- The block with the opcode-table row's word as the one thing the environment makes happen next. -/
def State.withFetchWord (s : State) (nbits w : Nat) : State := { s with inputs := tableInputs nbits w }

end Sys2Proof.Machine
end

