-- ==== Sys2Proof/Machine/Gray.lean ====
section
/-! DEFINITION. The code in which a queue index crosses between the clock domains (`30_encoding.md` rule R61). The
meanings never use it: a copy is held by its decoded value (rule R14). -/

namespace Sys2Proof

/-- The offset `K = (2^AW - C) / 2` (rule R61). -/
def Config.grayOffset (c : Config) : Nat := (2 ^ c.indexWidth - c.cap) / 2

/-- The reflected gray code `b ^ (b >> 1)` (rule R61). -/
def reflected (b : Nat) : Nat := b ^^^ (b >>> 1)

/-- `enc(i)`: the word in which the index `i` crosses (rule R61). -/
def Config.grayEnc (c : Config) (i : Nat) : Nat := reflected (i + c.grayOffset)

/-- The number whose reflected gray code is the `n`-bit word `g`: each bit is the code's bit exclusive-or the bit
above it. -/
def unreflect : Nat → Nat → Nat
  | 0, _ => 0
  | n + 1, g => 2 * unreflect n (g / 2) + (unreflect n (g / 2) + g) % 2

/-- `dec`, the inverse of `enc` (rule R61). -/
def Config.grayDec (c : Config) (w : Nat) : Nat := unreflect c.indexWidth w - c.grayOffset

/-- The word that carries `head` to the read domain. -/
def Machine.State.headCrossing (s : Machine.State) : Nat := s.cfg.grayEnc s.head

/-- The word that carries `tail` to the write domain. -/
def Machine.State.tailCrossing (s : Machine.State) : Nat := s.cfg.grayEnc s.tail

end Sys2Proof
end

