-- ==== Sys2Proof/Machine/Agents.lean ====
section
/-! DEFINITION. The agents of the block and which of them takes which operation (`00_scope.md` rule R7,
`30_encoding.md` rule R58). The hardware enforces none of it (rule R111); a trace orders their steps (rule R108). -/

namespace Sys2Proof.Machine

/-- The agents of rule R7 that take a step of the block. The hardware reset is the initialiser's too. -/
inductive Agent where
  | producer | consumer | headSynchroniser | tailSynchroniser | bothSynchronisers | initialiser
  deriving DecidableEq, Repr

/-- The agent column of rule R58; a byte of the line at the decoder port is the consumer's. -/
def agentOf : Instr → Agent
  | .put _ => .producer
  | .qinit => .initialiser
  | .synch _ => .headSynchroniser
  | .synct _ => .tailSynchroniser
  | .syncall => .bothSynchronisers
  | .get | .feed _ | .dinit | .pump | .send _ | .sendctlAck | .sendctlNak | .sendctlIam | .dat _
  | .packet | .ack | .nak | .iam | .noise _ => .consumer

end Sys2Proof.Machine
end

