-- ==== Sys2Proof/Machine/Traces.lean ====
section
/-! DEFINITION. Several operations one after another: a sequence of operations, a stream of bytes fed, and the
pseudo-operations of `30_encoding.md` rule R64 that are not one step. -/

namespace Sys2Proof.Machine

/-- Operations one after another, stopping where one stops. -/
def runOps : List Instr → State → Run State
  | [], s => .next s
  | i :: rest, s => andThen (exec i s) fun t => runOps rest t

/-- Bytes fed one after another, with the results in order. -/
def feedAll : List Byte → State → Run (List DecodeResult × State)
  | [], s => .next ([], s)
  | b :: rest, s =>
    andThen (exec (.feed b) s) fun t =>
      andThen (feedAll rest t) fun r => .next (t.result.toList ++ r.1, r.2)

/-- `RX b`: a byte arrives and becomes visible to the consumer (rule R64). -/
def rxOps (b : Byte) : List Instr := [.put b, .syncall]

/-- `DRAIN`: PUMP repeated until one returns `get_ok = 0` (rule R64), at most `fuel` times. -/
def drain : Nat → State → Run State
  | 0, s => .next s
  | fuel + 1, s =>
    andThen (exec .pump s) fun t => if t.getOk = some false then .next t else drain fuel t

end Sys2Proof.Machine
end

