-- ==== Sys2Proof/Safety.lean ====
section
/-! DEFINITION. What a state of the block is when every rule has been kept: the ring invariant of `10_state.md` rule
R15, the decoder's range and validity facts (rules R18, R19, R21), and the canonical form of the storage spaces. -/

namespace Sys2Proof.Safety

open Sys2Proof.Machine

/-- The ghost counts of rule R15, which are no state of the hardware: successful PUTs and GETs since the last QINIT
or reset, and the values of the two that the copies have caught up with. -/
structure Counts where
  h : Nat
  t : Nat
  hr : Nat
  tw : Nat
  deriving DecidableEq, Repr

/-- The ring invariant (rule R15), for given ghost counts. -/
abbrev RingAt (n : Counts) (s : State) : Prop :=
  (n.tw ≤ n.t ∧ n.t ≤ n.hr ∧ n.hr ≤ n.h ∧ n.h ≤ n.tw + (s.cfg.cap - 1)) ∧
  (s.head = n.h % s.cfg.cap ∧ s.tail = n.t % s.cfg.cap) ∧
  (s.headSeen = n.hr % s.cfg.cap ∧ s.tailSeen = n.tw % s.cfg.cap) ∧
  (s.cfg.cdc = .atomic → n.tw = n.t ∧ n.hr = n.h)

/-- How an operation that took the block from `s` to `s'` moves the ghost counts (rule R15). With `CDC = atomic`
the copies are the originals, so `Tw = T` and `Hr = H` after every step. -/
def Counts.after (n : Counts) (i : Instr) (s s' : State) : Counts :=
  let m : Counts :=
    match i with
    | .put _ => if s'.ports = .put true then { n with h := n.h + 1 } else n
    | .get => if s'.getOk = some true then { n with t := n.t + 1 } else n
    | .pump => if s'.getOk = some true then { n with t := n.t + 1 } else n
    | .qinit => ⟨0, 0, 0, 0⟩
    | .synch k => { n with hr := n.hr + k }
    | .synct k => { n with tw := n.tw + k }
    | .syncall => { n with hr := n.h, tw := n.t }
    | .feed _ | .dinit | .send _ | .sendctlAck | .sendctlNak | .sendctlIam | .dat _
    | .packet | .ack | .nak | .iam | .noise _ => n
  if s.cfg.cdc = .atomic then { m with hr := m.h, tw := m.t } else m

/-- The number of pending bytes, `dist(tail, head)` (rule R13). -/
def pendingCount (s : State) : Nat := s.cfg.dist s.tail s.head

/-- The slot of the `j`-th pending byte (rule R41). -/
def pendingSlot (s : State) (j : Nat) : Nat := (s.tail + j) % s.cfg.cap

/-- The bytes put and not yet taken, oldest first. -/
def pending (s : State) : List Byte :=
  (List.range (pendingCount s)).map fun j => s.byteAt .buf (pendingSlot s j)

/-- Every pending slot has been written since power-up (rule R41). -/
abbrev PendingWritten (s : State) : Prop :=
  ∀ j < pendingCount s, ((s.buf.find (pendingSlot s j)).isSome : Bool) = true

/-- The queue's part of a safe state. -/
abbrev QueueInv (s : State) : Prop := (∃ n, RingAt n s) ∧ PendingWritten s

/-- The first `n` payload bytes of the packet being assembled (rule R17). -/
def assembled (s : State) (n : Nat) : List Byte :=
  (List.range n).map fun j => s.byteAt .packet (2 + j)

/-- While a payload or a checksum byte is awaited: the header and a legal length are in place, every slot below
`writeIndex` is valid, and `checksum` is the exclusive-or of the payload so far (rules R17, R19, R21). -/
abbrev Assembling (s : State) : Prop :=
  s.packet.find 0 = some s.cfg.hdr ∧
  declaredLength (s.byteAt .packet 1) ≤ s.cfg.maxPay ∧
  2 ≤ s.writeIndex ∧
  (∀ a < s.writeIndex, ((s.packet.find a).isSome : Bool) = true) ∧
  s.checksum = xorBytes (assembled s (s.writeIndex - 2))

/-- The decoder's part of a safe state, by the decoder's state (rules R18, R21). -/
def DecoderInv (s : State) : Prop :=
  match s.state with
  | .awaitHeader => True
  | .awaitLength => s.packet.find 0 = some s.cfg.hdr
  | .awaitPayload => Assembling s ∧ s.writeIndex < declaredLength (s.byteAt .packet 1) + 2
  | .awaitChecksum => Assembling s ∧ s.writeIndex = declaredLength (s.byteAt .packet 1) + 2

/-- Each storage space is in canonical form and lists no slot outside its array. -/
abbrev StorageInv (s : State) : Prop :=
  ∀ sp : Space, (s.mem sp).wf = true ∧ (s.mem sp).within (s.cfg.size sp) = true

/-- `writeIndex` never exceeds the maximum packet size (rule R18). -/
abbrev WriteIndexInv (s : State) : Prop := s.writeIndex ≤ s.cfg.packetMax

/-- A safe state. -/
structure Inv (s : State) : Prop where
  legal : s.cfg.legal = true
  storage : StorageInv s
  queue : QueueInv s
  writeIndex : WriteIndexInv s
  decoder : DecoderInv s

/-- The byte an accepted PUT added to the queue, if the step was one. -/
def accepted (i : Instr) (s' : State) : List Byte :=
  match i with
  | .put b => if s'.putOk = some true then [b] else []
  | .get | .qinit | .feed _ | .dinit | .pump | .send _ | .sendctlAck | .sendctlNak | .sendctlIam | .dat _
  | .synch _ | .synct _ | .syncall | .packet | .ack | .nak | .iam | .noise _ => []

/-- The byte a step took out of the queue, if it took one: GET shows it on `get_data`, PUMP feeds the byte of
the slot at `tail` (rule R87). -/
def delivered (i : Instr) (s s' : State) : List Byte :=
  match i with
  | .get => if s'.getOk = some true then s'.getData.toList else []
  | .pump => if s'.getOk = some true then [s.byteAt .buf s.tail] else []
  | .put _ | .qinit | .feed _ | .dinit | .send _ | .sendctlAck | .sendctlNak | .sendctlIam | .dat _
  | .synch _ | .synct _ | .syncall | .packet | .ack | .nak | .iam | .noise _ => []

/-- The bytes accepted and the bytes delivered along a run of operations, each in order, and where the run ends
(rule R40); nothing, if an operation of it stops. -/
def history : List Instr → State → Option (List Byte × List Byte × State)
  | [], s => some ([], [], s)
  | i :: rest, s =>
    match exec i s with
    | .next s' =>
      match history rest s' with
      | some (p, g, t) => some (accepted i s' ++ p, delivered i s s' ++ g, t)
      | none => none
    | .fault _ => none
    | .refused _ => none

/-- The operations of the `gray` block that stand for one operation of the `atomic` block: a SYNCALL follows every
PUT and every GET, the GET inside a PUMP included (rule R46). -/
def withSyncall : Instr → List Instr
  | .put b => [.put b, .syncall]
  | .get => [.get, .syncall]
  | .pump => [.pump, .syncall]
  | .qinit => [.qinit]
  | .feed b => [.feed b]
  | .dinit => [.dinit]
  | .send payload => [.send payload]
  | .sendctlAck => [.sendctlAck]
  | .sendctlNak => [.sendctlNak]
  | .sendctlIam => [.sendctlIam]
  | .dat b => [.dat b]
  | .synch k => [.synch k]
  | .synct k => [.synct k]
  | .syncall => [.syncall]
  | .packet => [.packet]
  | .ack => [.ack]
  | .nak => [.nak]
  | .iam => [.iam]
  | .noise b => [.noise b]

/-- Two states that differ at most in what the ports show for the last step, which no operation reads. -/
abbrev SameButPorts (s t : State) : Prop := { t with ports := s.ports } = s

/-- The same block built with `CDC = gray`, with copies that have caught up (rule R46). -/
def asGray (s : State) : State :=
  { s with cfg := { s.cfg with cdc := .gray }, headRd := s.head, tailWr := s.tail }

end Sys2Proof.Safety
end

