-- ==== Sys2Proof/Certificates/Slice0/Obligations.lean ====
section
/-! DEFINITION. The statements about the block, one per rule or group of rules of the spec. -/

open Sys2Proof Sys2Proof.Machine Sys2Proof.Safety Host

/-! ### Reset and the step -/

/-- Rule R27: the table of reset values. The three arrays are unspecified: every slot reads as its power-up byte,
a constant with no body. -/
def Obligations.ResetLeavesTheStatedValues : Prop :=
  State.reset.head = 0 ∧ State.reset.tail = 0 ∧ State.reset.headRd = 0 ∧ State.reset.tailWr = 0 ∧
  State.reset.state = .awaitHeader ∧ State.reset.writeIndex = 0 ∧ State.reset.checksum = 0 ∧
  State.reset.txlog = [] ∧ (∀ sp a, State.reset.byteAt sp a = Config.powerUp sp a) ∧
  RingAt ⟨0, 0, 0, 0⟩ State.reset

/-- Rule R120: the reset input is QINIT and DINIT taken together as one step, in any state of any legal block; the
arrays are not cleared and the transmission record starts afresh. -/
def Obligations.ResetInputIsQinitAndDinitTogether : Prop :=
  ∀ (s : State) (rest : List Input), s.cfg.legal = true → s.inputs = .rst :: rest →
    ∃ t u v, step s = .next t ∧
      t = { s with head := 0, tail := 0, headRd := t.headRd, tailWr := t.tailWr, state := .awaitHeader,
                   writeIndex := 0, checksum := 0, txlog := [], ports := .quiet, inputs := rest } ∧
      t.headSeen = 0 ∧ t.tailSeen = 0 ∧ RingAt ⟨0, 0, 0, 0⟩ t ∧
      exec .qinit { s with inputs := rest } = .next u ∧ exec .dinit u = .next v ∧ t = { v with txlog := [] }

/-- Rules R7, R8: a step takes the operation that stands at the front of the trace, and nothing else. -/
def Obligations.StepRunsTheDecodedOperation : Prop :=
  ∀ (s : State) (i : Instr) (left : List Input), s.cfg.legal = true →
    decode s.cfg s.state s.inputs = .ok (i, left) → step s = exec i { s with inputs := left }

/-- THE MODEL'S CHOICE (log entries 1 and 6): with nothing requested nothing happens; a configuration that breaks
rule R5 is refused; a front of the trace that spells no operation is refused with the reason. -/
def Obligations.StepWithoutAnOperation : Prop :=
  ∀ s : State,
    (s.cfg.legal = true → s.inputs = [] → step s = .next { s with ports := .quiet }) ∧
    (s.cfg.legal = false → step s = .refused .illegalConfig) ∧
    (∀ item rest e, s.cfg.legal = true → s.inputs = item :: rest → item ≠ .rst →
      decode s.cfg s.state s.inputs = .error e → step s = .refused (.reserved e))

/-- Rule R60: the reserved command words spell no operation, and the block refuses a trace that has one in front. -/
def Obligations.ReservedWordsAreRefused : Prop :=
  ∀ (s : State) (op : BitVec 4) (arg : Byte) (rest : List Input), s.cfg.legal = true →
    s.inputs = .cw (commandWord op arg) :: rest →
    (op = 0x0 ∨ op = 0xD ∨ op = 0xE ∨ op = 0xF →
      step s = .refused (.reserved (.reservedOp (commandWord op arg)))) ∧
    ((op = 0x2 ∨ op = 0x3 ∨ op = 0x5 ∨ op = 0x6 ∨ op = 0xC) → arg ≠ 0 →
      step s = .refused (.reserved (.reservedArg (commandWord op arg)))) ∧
    (op = 0x8 → 3 ≤ arg.toNat → step s = .refused (.reserved (.reservedArg (commandWord op arg)))) ∧
    (op = 0x9 → step s = .refused .strayDat ∧ exec (.dat arg) s = .refused .strayDat) ∧
    (op = 0x7 →
      (¬ ∃ (payload : List Byte) (left : List Input), payload.length = arg.toNat ∧
        rest = payload.map (fun b => .cw (commandWord 0x9 b)) ++ left) →
      step s = .refused (.reserved (.shortSend arg.toNat)))

/-! ### Encoding -/

/-- Rules R57 to R60 and R52: decoding the encoding of any operation whose operands fit gives it back, with whatever
follows left over. A wire row is a row of the idle decoder; a command word decodes alike in every state. -/
def Obligations.DecodeOfEncodeIsTheOperation : Prop :=
  ∀ (c : Config) (st : DecoderState) (i : Instr) (rest : List Input), c.legal = true → i.wf c = true →
    (st = .awaitHeader ∨ ∃ w r, encode c i = .cw w :: r) →
    decode c st (encode c i ++ rest) = .ok (i, rest)

/-- Rules R57 to R60 and R52: whatever the decoder reads while idle is spelled by exactly the items it took, and its
operands fit. -/
def Obligations.EncodeOfDecodeIsTheTrace : Prop :=
  ∀ (c : Config) (items : List Input) (i : Instr) (left : List Input),
    decode c .awaitHeader items = .ok (i, left) → encode c i ++ left = items ∧ i.wf c = true

/-- Words written out from the tables of rules R58, R59 and from `opcode_table.json` stand for their operations. -/
def Obligations.WordsOfTheTablesDecode : Prop :=
  decodeTableWord 16 0x141 = some (.put 0x41) ∧ decodeTableWord 16 0x200 = some .get ∧
  decodeTableWord 16 0x42A = some (.feed 0x2A) ∧ decodeTableWord 16 0x600 = some .pump ∧
  decodeTableWord 16 0x801 = some .sendctlNak ∧ decodeTableWord 16 0xA03 = some (.synch 3) ∧
  decodeTableWord 16 0xC00 = some .syncall ∧ decodeTableWord 16 0x803 = none ∧
  decodeTableWord 8 0xF5 = some .packet ∧ decodeTableWord 8 0xF8 = some .iam ∧
  decodeTableWord 8 0x41 = some (.noise 0x41) ∧
  (decode Config.ref .awaitHeader [.cw 0x702, .cw 0x981, .cw 0x92A, .cw 0x200]).toOption =
    some (.send [0x81, 0x2A], [.cw 0x200])

/-- Rules R55, R56: the numeric codes of the seven results and of the four states; code 7 is produced by none. -/
def Obligations.ResultAndStateCodes : Prop :=
  [DecodeResult.inProgress, .packetReceived, .ackReceived, .nakReceived, .iamReceived, .sizeError,
    .checksumError].map DecodeResult.code = [0, 1, 2, 3, 4, 5, 6] ∧
  (∀ r : DecodeResult, r.code ≠ 7) ∧
  [DecoderState.awaitHeader, .awaitLength, .awaitPayload, .awaitChecksum].map DecoderState.code = [0, 1, 2, 3]

/-- Rule R61: in a legal gray configuration the words of neighbouring indices differ in exactly one bit, the step from
`C - 1` back to 0 included; the code fits `AW` bits, is one-to-one, and `dec` is its inverse; the offset is 0 for a
power of two; the word of index 0 is all zeros only then; and the rule's table for `C = 20`. -/
def Obligations.GrayCodeChangesOneBit : Prop :=
  ∀ c : Config, c.legal = true → c.cdc = .gray →
    2 * c.grayOffset = 2 ^ c.indexWidth - c.cap ∧ c.cap ≤ 2 ^ c.indexWidth ∧
    (∀ i < c.cap, c.grayEnc i = (i + c.grayOffset) ^^^ ((i + c.grayOffset) >>> 1)) ∧
    (∀ i < c.cap, c.grayEnc i < 2 ^ c.indexWidth) ∧
    (∀ i < c.cap, ∃ k < c.indexWidth, c.grayEnc i ^^^ c.grayEnc (c.inc i) = 2 ^ k) ∧
    (∀ i < c.cap, ∀ j < c.cap, c.grayEnc i = c.grayEnc j → i = j) ∧
    (∀ i < c.cap, c.grayDec (c.grayEnc i) = i) ∧
    (c.cap = 2 ^ c.indexWidth → c.grayOffset = 0) ∧ (c.grayEnc 0 = 0 ↔ c.grayOffset = 0) ∧
    (c.cap = 20 → (List.range 20).map c.grayEnc =
      [0b00101, 0b00100, 0b01100, 0b01101, 0b01111, 0b01110, 0b01010, 0b01011, 0b01001, 0b01000,
       0b11000, 0b11001, 0b11011, 0b11010, 0b11110, 0b11111, 0b11101, 0b11100, 0b10100, 0b10101])

/-! ### The queue -/

/-- Rule R70: PUT, both outcomes, its encoding and its frame. -/
def Obligations.PutStoresAByteOrReportsQueueFull : Prop :=
  ∀ (b : Byte) (s : State),
    encode s.cfg (.put b) = [.cw (0x1#4 ++ b)] ∧
    (s.cfg.inc s.head = s.tailSeen → exec (.put b) s = .next { s with ports := .put false }) ∧
    (s.cfg.inc s.head ≠ s.tailSeen → s.head < s.cfg.cap →
      ∃ t, exec (.put b) s = .next t ∧
        t = { s with buf := t.buf, head := (s.head + 1) % s.cfg.cap, ports := .put true } ∧
        t.byteAt .buf s.head = b ∧ (∀ a, a ≠ s.head → t.byteAt .buf a = s.byteAt .buf a))

/-- Rule R71: GET, both outcomes, its encoding and its frame. On an empty queue `get_data` is the free byte `any8`,
a fresh one each time (the model's counter of draws advances): nothing is known of its value. -/
def Obligations.GetTakesAByteOrReportsQueueEmpty : Prop :=
  ∀ s : State,
    encode s.cfg .get = [.cw 0x200] ∧
    (s.tail = s.headSeen →
      exec .get s =
        .next { s with ports := .get false (Config.any8 s.draws), draws := s.draws + 1 }) ∧
    (s.tail ≠ s.headSeen → s.tail < s.cfg.cap →
      exec .get s =
        .next { s with tail := (s.tail + 1) % s.cfg.cap, ports := .get true (s.byteAt .buf s.tail) })

/-- Rule R72: QINIT sets the four indices to 0 and nothing else; the ghost counts start afresh and nothing pending
is left. -/
def Obligations.QinitEmptiesTheQueue : Prop :=
  ∀ s : State,
    encode s.cfg .qinit = [.cw 0x300] ∧
    ∃ t, exec .qinit s = .next t ∧
      t = { s with head := 0, tail := 0, headRd := t.headRd, tailWr := t.tailWr, ports := .quiet } ∧
      t.headSeen = 0 ∧ t.tailSeen = 0 ∧ RingAt ⟨0, 0, 0, 0⟩ t ∧ pending t = []

/-- Rules R73, R74, for `CDC = gray`: a synchroniser step moves its copy forward by `k` and nothing else, exactly when
`k` is at most the lag. THE MODEL'S CHOICE for `CDC = atomic` (log entry 10, DEDUCED from rule R14; the section heading
`only with CDC = gray` admits another reading): there is no copy to lag, so `k = 0` completes and changes nothing, and
a larger `k` is refused. -/
def Obligations.SynchroniserStepsAdvanceTheCopies : Prop :=
  ∀ (k : Nat) (s : State), s.cfg.legal = true →
    (s.cfg.cdc = .gray →
      (k ≤ s.cfg.dist s.headRd s.head →
        exec (.synch k) s = .next { s with headRd := (s.headRd + k) % s.cfg.cap, ports := .quiet }) ∧
      (s.cfg.dist s.headRd s.head < k → exec (.synch k) s = .refused .syncNotEnabled) ∧
      (k ≤ s.cfg.dist s.tailWr s.tail →
        exec (.synct k) s = .next { s with tailWr := (s.tailWr + k) % s.cfg.cap, ports := .quiet }) ∧
      (s.cfg.dist s.tailWr s.tail < k → exec (.synct k) s = .refused .syncNotEnabled)) ∧
    (s.cfg.cdc = .atomic →
      (k = 0 → exec (.synch k) s = .next { s with ports := .quiet }) ∧
      (0 < k → exec (.synch k) s = .refused .syncNotEnabled) ∧
      (k = 0 → exec (.synct k) s = .next { s with ports := .quiet }) ∧
      (0 < k → exec (.synct k) s = .refused .syncNotEnabled))

/-- Rule R75: SYNCALL brings both copies level with their originals, is always enabled, and is SYNCH by the whole
lag followed by SYNCT by the whole lag; with `CDC = atomic` it is implied (each side sees the other's index itself)
and writing it changes nothing. -/
def Obligations.SyncallCatchesUpCompletely : Prop :=
  ∀ s : State,
    encode s.cfg .syncall = [.cw 0xC00] ∧
    (s.cfg.cdc = .gray →
      exec .syncall s = .next { s with headRd := s.head, tailWr := s.tail, ports := .quiet }) ∧
    (s.cfg.cdc = .atomic →
      s.headSeen = s.head ∧ s.tailSeen = s.tail ∧ exec .syncall s = .next { s with ports := .quiet }) ∧
    (s.head < s.cfg.cap → s.tail < s.cfg.cap →
      runOps [.synch (s.cfg.dist s.headSeen s.head), .synct (s.cfg.dist s.tailSeen s.tail)] s = exec .syncall s)

/-- Rules R76, R138: index arithmetic stays below `C`, `inc` is the wrap of one step, and `dist` counts the steps
from one index forward to another. -/
def Obligations.IndexArithmeticStaysBelowC : Prop :=
  ∀ (c : Config) (a b : Nat), a < c.cap → b < c.cap →
    c.inc a = (if a = c.cap - 1 then 0 else a + 1) ∧ c.inc a < c.cap ∧
    c.dist a b < c.cap ∧ (a + c.dist a b) % c.cap = b ∧
    c.dist a b = (if a ≤ b then b - a else b + c.cap - a) ∧ (c.dist a b = 0 ↔ a = b)

/-- Rule R13: empty is `head = tail`, full is `inc(head) = tail`, and the number pending is between 0 and `C - 1`. -/
def Obligations.UsableCapacityIsCMinusOne : Prop :=
  ∀ s : State, s.head < s.cfg.cap → s.tail < s.cfg.cap →
    (s.head = s.tail ↔ pendingCount s = 0) ∧ (s.cfg.inc s.head = s.tail ↔ pendingCount s = s.cfg.cap - 1) ∧
    pendingCount s ≤ s.cfg.cap - 1 ∧ (pending s).length = pendingCount s

/-- Rule R15: the ring invariant. Every operation moves the ghost counts as the rule says and keeps the invariant, and
the reset input starts the counts afresh;
the distances used in the rules are the true differences of the counts, each at most `C - 1`. -/
def Obligations.RingHoldsAtEveryStep : Prop :=
  ∀ (n : Counts) (s : State), s.cfg.legal = true → RingAt n s →
    (∀ i s', exec i s = .next s' → RingAt (n.after i s s') s') ∧
    (∀ rest s', s.inputs = .rst :: rest → step s = .next s' → RingAt ⟨0, 0, 0, 0⟩ s') ∧
    s.cfg.dist s.tail s.head = n.h - n.t ∧ s.cfg.dist s.headSeen s.head = n.h - n.hr ∧
    s.cfg.dist s.tailSeen s.tail = n.t - n.tw ∧ n.h - n.tw ≤ s.cfg.cap - 1

/-- Rule R40: from any safe queue, along any run without QINIT, what was pending followed by the bytes accepted is
what was delivered followed by what is pending at the end; from an emptied queue the bytes delivered are, one by one
and in order, the first of the bytes accepted. -/
def Obligations.DeliveryIsFirstInFirstOut : Prop :=
  ∀ (ops : List Instr) (s t : State) (p g : List Byte), s.cfg.legal = true → QueueInv s → .qinit ∉ ops →
    history ops s = some (p, g, t) →
    pending s ++ p = g ++ pending t ∧ (pending s = [] → g <+: p)

/-- Rule R41: a PUT never writes a slot that holds a byte not yet taken, and a GET never reads a slot that holds none
or that nothing has written since power-up. -/
def Obligations.NoOverwriteAndNoUnderflow : Prop :=
  ∀ (s s' : State), s.cfg.legal = true → QueueInv s →
    (∀ b, exec (.put b) s = .next s' → s'.putOk = some true →
      ∀ j < pendingCount s, pendingSlot s j ≠ s.head ∧
        s'.byteAt .buf (pendingSlot s j) = s.byteAt .buf (pendingSlot s j)) ∧
    (exec .get s = .next s' → s'.getOk = some true →
      0 < pendingCount s ∧ (∃ v, s.buf.find s.tail = some v ∧ s'.getData = some v)) ∧
    (exec .pump s = .next s' → s'.getOk = some true →
      0 < pendingCount s ∧ (∃ v, s.buf.find s.tail = some v))

/-- Rule R45: a report of full or empty may be pessimistic and is never optimistic. PUT fails exactly when `H - Tw`
is `C - 1`, GET exactly when `Hr = T`; so a truly full queue always fails a PUT and a truly empty one a GET, and there
are safe states in which each fails although the queue is not truly full, or not truly empty. -/
def Obligations.FullAndEmptyAreNeverOptimistic : Prop :=
  (∀ (n : Counts) (s s' : State), s.cfg.legal = true → RingAt n s →
    (∀ b, exec (.put b) s = .next s' →
      (s'.putOk = some false ↔ n.h = n.tw + (s.cfg.cap - 1)) ∧
      (n.h = n.t + (s.cfg.cap - 1) → n.tw = n.t ∧ s'.putOk = some false)) ∧
    (exec .get s = .next s' →
      (s'.getOk = some false ↔ n.hr = n.t) ∧ (n.h = n.t → n.hr = n.t ∧ s'.getOk = some false))) ∧
  (∃ (n : Counts) (s s' : State), s.cfg.legal = true ∧ s.cfg.cdc = .gray ∧ RingAt n s ∧
    n.h < n.t + (s.cfg.cap - 1) ∧ exec (.put 0) s = .next s' ∧ s'.putOk = some false) ∧
  (∃ (n : Counts) (s s' : State), s.cfg.legal = true ∧ s.cfg.cdc = .gray ∧ RingAt n s ∧
    n.t < n.h ∧ exec .get s = .next s' ∧ s'.getOk = some false)

/-- Rule R46: every run of the `atomic` block is a run of the `gray` block in which a SYNCALL follows every PUT and
every GET: operation by operation with the same status, and as a whole. The converse fails: a GET right after a PUT succeeds in the atomic block and can fail in the gray one. -/
def Obligations.AtomicRunsAreGrayRuns : Prop :=
  (∀ (i : Instr) (s s' : State), s.cfg.legal = true → s.cfg.cdc = .atomic → QueueInv s → exec i s = .next s' →
    ∃ w v, exec i (asGray s) = .next w ∧ w.ports = s'.ports ∧
      runOps ((withSyncall i).drop 1) w = .next v ∧ SameButPorts v (asGray s')) ∧
  (∀ (ops : List Instr) (s s' : State), s.cfg.legal = true → s.cfg.cdc = .atomic → QueueInv s →
    runOps ops s = .next s' →
    ∃ v, runOps (ops.flatMap withSyncall) (asGray s) = .next v ∧ SameButPorts v (asGray s')) ∧
  (∀ (b : Byte) (s u v : State), s.cfg.legal = true → s.cfg.cdc = .atomic → QueueInv s →
    exec (.put b) s = .next u → exec .get u = .next v → u.putOk = some true → v.getOk = some true) ∧
  (∃ (s u v : State), Inv s ∧ s.cfg.cdc = .gray ∧ exec (.put 0) s = .next u ∧ u.putOk = some true ∧
    exec .get u = .next v ∧ v.getOk = some false)

/-- Rule R108: with `CDC = gray` a PUT and a consumer operation on the same instant give the same state and the same
statuses in either order. -/
def Obligations.PutCommutesWithTheConsumer : Prop :=
  ∀ (b : Byte) (i : Instr) (s : State), s.cfg.legal = true → s.cfg.cdc = .gray → QueueInv s →
    agentOf i = .consumer →
    (∀ u u', exec (.put b) s = .next u → exec i u = .next u' →
      ∃ v v', exec i s = .next v ∧ exec (.put b) v = .next v' ∧ SameButPorts u' v' ∧
        v.ports = u'.ports ∧ v'.ports = u.ports) ∧
    (∀ v v', exec i s = .next v → exec (.put b) v = .next v' →
      ∃ u u', exec (.put b) s = .next u ∧ exec i u = .next u' ∧ SameButPorts u' v' ∧
        v.ports = u'.ports ∧ v'.ports = u.ports)

/-- Rules R13, R77 (the capacity scenario for every legal configuration): right after QINIT exactly `C - 1` PUTs
succeed and the next fails; after a SYNCALL exactly the same bytes come back in order and the next GET fails. -/
def Obligations.FillThenDrainReturnsEveryByte : Prop :=
  ∀ (s : State) (bs : List Byte) (x : Byte), s.cfg.legal = true → bs.length = s.cfg.cap - 1 →
    ∃ q t u v, exec .qinit s = .next q ∧ history (bs.map .put) q = some (bs, [], t) ∧
      exec (.put x) t = .next { t with ports := .put false } ∧
      history (.syncall :: List.replicate (s.cfg.cap - 1) .get) t = some ([], bs, u) ∧
      exec .get u = .next v ∧ v.getOk = some false ∧ v.tail = u.tail

/-- Rule R23: the two level outputs say what a PUT and a GET would do now. -/
def Obligations.LevelOutputsForetellPutAndGet : Prop :=
  ∀ (b : Byte) (s : State), s.head < s.cfg.cap → s.tail < s.cfg.cap →
    (∃ t, exec (.put b) s = .next t ∧ t.putOk = some (!s.fullW)) ∧
    (∃ t, exec .get s = .next t ∧ t.getOk = some (!s.emptyR) ∧
      (s.emptyR = false → t.getData = some (s.byteAt .buf s.tail)))

/-- Rule R64, `RX b`: a byte that is not dropped is pending and visible to the consumer afterwards. -/
def Obligations.RxMakesTheByteVisible : Prop :=
  ∀ (b : Byte) (s : State), Inv s → s.fullW = false →
    ∃ t, runOps (rxOps b) s = .next t ∧ t.emptyR = false ∧ pending t = pending s ++ [b]

/-- Rule R64, `DRAIN`: from a safe state a PUMP finds the queue empty after at most `C` of them, and then nothing that
the read domain sees is left. -/
def Obligations.DrainEmptiesTheQueue : Prop :=
  ∀ s : State, Inv s →
    ∃ t, drain s.cfg.cap s = .next t ∧ t.getOk = some false ∧ t.emptyR = true ∧ t.tail = s.headSeen ∧ Inv t

/-! ### The decoder -/

/-- Rule R81: FEED while idle. -/
def Obligations.FeedAwaitingAHeader : Prop :=
  ∀ (b : Byte) (s : State), s.cfg.legal = true → s.state = .awaitHeader →
    encode s.cfg (.feed b) = [.cw (0x4#4 ++ b)] ∧
    (b = s.cfg.hdr →
      ∃ t, exec (.feed b) s = .next t ∧
        t = { s with packet := t.packet, state := .awaitLength, ports := .feed .inProgress } ∧
        t.byteAt .packet 0 = b ∧ (∀ a, a ≠ 0 → t.byteAt .packet a = s.byteAt .packet a)) ∧
    (b = s.cfg.ack → exec (.feed b) s = .next { s with ports := .feed .ackReceived }) ∧
    (b = s.cfg.nak → exec (.feed b) s = .next { s with ports := .feed .nakReceived }) ∧
    (b = s.cfg.iam → exec (.feed b) s = .next { s with ports := .feed .iamReceived }) ∧
    (b ≠ s.cfg.hdr → b ≠ s.cfg.ack → b ≠ s.cfg.nak → b ≠ s.cfg.iam →
      exec (.feed b) s = .next { s with ports := .feed .inProgress })

/-- Rule R82: FEED of a length byte. It is stored either way; above `MAXPAY` it is a SizeError, and 0 goes straight to
the checksum byte. -/
def Obligations.FeedAwaitingALength : Prop :=
  ∀ (b : Byte) (s : State), s.state = .awaitLength →
    ∃ t, exec (.feed b) s = .next t ∧
      t.byteAt .packet 1 = b ∧ (∀ a, a ≠ 1 → t.byteAt .packet a = s.byteAt .packet a) ∧
      (s.cfg.maxPay < b.toNat →
        t = { s with packet := t.packet, state := .awaitHeader, ports := .feed .sizeError }) ∧
      (b.toNat ≤ s.cfg.maxPay → b = 0 →
        t = { s with packet := t.packet, checksum := 0, writeIndex := 2, state := .awaitChecksum,
                     ports := .feed .inProgress }) ∧
      (b.toNat ≤ s.cfg.maxPay → b ≠ 0 →
        t = { s with packet := t.packet, checksum := 0, writeIndex := 2, state := .awaitPayload,
                     ports := .feed .inProgress })

/-- Rule R83: FEED of a payload byte, and the bounds the rule gives on entry. -/
def Obligations.FeedAwaitingPayload : Prop :=
  ∀ (b : Byte) (s : State), s.state = .awaitPayload →
    (Inv s → 2 ≤ s.writeIndex ∧ s.writeIndex ≤ (s.byteAt .packet 1).toNat + 1 ∧
      (s.byteAt .packet 1).toNat + 1 ≤ s.cfg.maxPay + 1 ∧ s.cfg.maxPay + 1 = s.cfg.packetMax - 2) ∧
    (s.writeIndex < s.cfg.packetMax →
      ∃ t, exec (.feed b) s = .next t ∧
        t = { s with packet := t.packet, checksum := s.checksum ^^^ b, writeIndex := s.writeIndex + 1,
                     state := t.state, ports := .feed .inProgress } ∧
        t.state = (if s.writeIndex + 1 = (s.byteAt .packet 1).toNat + 2 then .awaitChecksum else .awaitPayload) ∧
        t.byteAt .packet s.writeIndex = b ∧
        (∀ a, a ≠ s.writeIndex → t.byteAt .packet a = s.byteAt .packet a))

/-- Rule R84: FEED of a checksum byte, the copy to `outbuf` on a match, and the bound the rule gives. -/
def Obligations.FeedAwaitingAChecksum : Prop :=
  ∀ (b : Byte) (s : State), s.state = .awaitChecksum →
    (Inv s → s.writeIndex = (s.byteAt .packet 1).toNat + 2 ∧ s.writeIndex ≤ s.cfg.packetMax - 1) ∧
    (b ≠ s.checksum → s.writeIndex < s.cfg.packetMax →
      ∃ t, exec (.feed b) s = .next t ∧
        t = { s with packet := t.packet, state := .awaitHeader, ports := .feed .checksumError } ∧
        t.byteAt .packet s.writeIndex = b ∧
        (∀ a, a ≠ s.writeIndex → t.byteAt .packet a = s.byteAt .packet a)) ∧
    (b = s.checksum → s.writeIndex < s.cfg.packetMax → (s.byteAt .packet 1).toNat ≤ s.cfg.maxPay →
      ∃ t, exec (.feed b) s = .next t ∧
        t = { s with packet := t.packet, outbuf := t.outbuf, state := .awaitHeader,
                     ports := .feed .packetReceived } ∧
        t.byteAt .packet s.writeIndex = b ∧
        (∀ a, a ≠ s.writeIndex → t.byteAt .packet a = s.byteAt .packet a) ∧
        (∀ a, a < (s.byteAt .packet 1).toNat + 3 → t.byteAt .outbuf a = t.byteAt .packet a) ∧
        (∀ a, (s.byteAt .packet 1).toNat + 3 ≤ a → t.byteAt .outbuf a = s.byteAt .outbuf a))

/-- Rule R88: the complete transition table of the decoder's state, with the result of each row; DINIT and reset
lead to AwaitHeader; and a packet of declared length `L` takes exactly `L + 3` FEEDs to its terminal event. -/
def Obligations.DecoderTransitionTable : Prop :=
  ∀ (s : State), Inv s →
    (∀ b, ∃ t, exec (.feed b) s = .next t ∧
      (s.state = .awaitHeader → b = s.cfg.hdr → t.state = .awaitLength ∧ t.result = some .inProgress) ∧
      (s.state = .awaitHeader → b = s.cfg.ack → t.state = .awaitHeader ∧ t.result = some .ackReceived) ∧
      (s.state = .awaitHeader → b = s.cfg.nak → t.state = .awaitHeader ∧ t.result = some .nakReceived) ∧
      (s.state = .awaitHeader → b = s.cfg.iam → t.state = .awaitHeader ∧ t.result = some .iamReceived) ∧
      (s.state = .awaitHeader → s.cfg.isStartByte b = false →
        t.state = .awaitHeader ∧ t.result = some .inProgress) ∧
      (s.state = .awaitLength → s.cfg.maxPay < b.toNat →
        t.state = .awaitHeader ∧ t.result = some .sizeError) ∧
      (s.state = .awaitLength → b.toNat = 0 → t.state = .awaitChecksum ∧ t.result = some .inProgress) ∧
      (s.state = .awaitLength → 1 ≤ b.toNat → b.toNat ≤ s.cfg.maxPay →
        t.state = .awaitPayload ∧ t.result = some .inProgress) ∧
      (s.state = .awaitPayload → s.writeIndex + 1 ≠ (s.byteAt .packet 1).toNat + 2 →
        t.state = .awaitPayload ∧ t.result = some .inProgress) ∧
      (s.state = .awaitPayload → s.writeIndex + 1 = (s.byteAt .packet 1).toNat + 2 →
        t.state = .awaitChecksum ∧ t.result = some .inProgress) ∧
      (s.state = .awaitChecksum → b = s.checksum →
        t.state = .awaitHeader ∧ t.result = some .packetReceived) ∧
      (s.state = .awaitChecksum → b ≠ s.checksum →
        t.state = .awaitHeader ∧ t.result = some .checksumError)) ∧
    (∃ t, exec .dinit s = .next t ∧ t.state = .awaitHeader) ∧
    (∃ t, step { s with inputs := [.rst] } = .next t ∧ t.state = .awaitHeader) ∧
    (s.state = .awaitHeader →
      ∀ (len : Byte) (body : List Byte), len.toNat ≤ s.cfg.maxPay → body.length = len.toNat + 1 →
        ∃ r t, feedAll (s.cfg.hdr :: len :: body) s =
            .next (List.replicate (len.toNat + 2) .inProgress ++ [r], t) ∧
          (r = .packetReceived ∨ r = .checksumError) ∧ t.state = .awaitHeader)

/-- Rule R86: DINIT. -/
def Obligations.DinitMakesTheDecoderIdle : Prop :=
  ∀ s : State,
    encode s.cfg .dinit = [.cw 0x500] ∧
    exec .dinit s = .next { s with state := .awaitHeader, writeIndex := 0, checksum := 0, ports := .quiet } ∧
    (∀ t, exec .dinit s = .next t → exec .dinit t = .next t)

/-- Rule R87: PUMP is GET and, if it succeeded, FEED of the byte it got, in one step; on an empty queue nothing is
written and the result field carries InProgress. -/
def Obligations.PumpIsGetThenFeed : Prop :=
  ∀ s : State,
    encode s.cfg .pump = [.cw 0x600] ∧
    (s.tail = s.headSeen → exec .pump s = .next { s with ports := .pump false .inProgress }) ∧
    (∀ u v x r, exec .get s = .next u → u.ports = .get true x → exec (.feed x) u = .next v →
      v.result = some r → exec .pump s = .next { v with ports := .pump true r }) ∧
    (Inv s → s.tail ≠ s.headSeen →
      ∃ u v r, exec .get s = .next u ∧ u.ports = .get true (s.byteAt .buf s.tail) ∧
        exec (.feed (s.byteAt .buf s.tail)) u = .next v ∧ v.result = some r ∧
        exec .pump s = .next { v with ports := .pump true r })

/-- Rules R100, R109: what the four errors change. QueueFull and QueueEmpty change nothing (a failing GET also draws a
free byte, the model's own); SizeError and ChecksumError put the decoder in AwaitHeader, leave `writeIndex`,
`checksum`, `outbuf` and everything outside the decoder alone, and the offending byte is in `packet[1]` or
`packet[writeIndex]`. -/
def Obligations.ErrorsAreLocalAndPrecise : Prop :=
  ∀ (i : Instr) (s t : State), exec i s = .next t →
    (t.putOk = some false → t = { s with ports := t.ports }) ∧
    (t.getOk = some false → t = { s with ports := t.ports, draws := t.draws }) ∧
    (t.result = some .sizeError →
      s.state = .awaitLength ∧
      t = { s with packet := t.packet, state := .awaitHeader, tail := t.tail, ports := t.ports } ∧
      s.cfg.maxPay < (t.byteAt .packet 1).toNat ∧
      (∀ a, a ≠ 1 → t.byteAt .packet a = s.byteAt .packet a)) ∧
    (t.result = some .checksumError →
      s.state = .awaitChecksum ∧
      t = { s with packet := t.packet, state := .awaitHeader, tail := t.tail, ports := t.ports } ∧
      t.byteAt .packet s.writeIndex ≠ s.checksum ∧
      (∀ a, a ≠ s.writeIndex → t.byteAt .packet a = s.byteAt .packet a))

/-- Rule R129 (and R84): `outbuf` is stable between two PacketReceived results, whatever else is done. -/
def Obligations.OutputBufferIsStable : Prop :=
  ∀ (i : Instr) (s t : State), exec i s = .next t → t.result ≠ some .packetReceived →
    t.outbuf = s.outbuf ∧ ∀ a, t.outData a = s.outData a

/-- THE MODEL'S CHOICE (log entry 8, DEDUCED and DESIGN CHOICE): a byte of the line in a trace goes to the decoder
port, and in every state a wire row is the FEED of its byte (rule R80). What that FEED does while idle is rule R81,
with the classes of rule R52: each control code has its result and changes no state, noise is ignored (rule R62), a
header starts a packet. -/
def Obligations.BytesOfTheLineWhileIdle : Prop :=
  ∀ (b : Byte) (s : State), s.cfg.legal = true →
    exec .packet s = exec (.feed s.cfg.hdr) s ∧ exec .ack s = exec (.feed s.cfg.ack) s ∧
    exec .nak s = exec (.feed s.cfg.nak) s ∧ exec .iam s = exec (.feed s.cfg.iam) s ∧
    exec (.noise b) s = exec (.feed b) s ∧
    (s.state = .awaitHeader →
      (∃ t, exec .packet s = .next t ∧
        t = { s with packet := t.packet, state := .awaitLength, ports := .feed .inProgress } ∧
        t.byteAt .packet 0 = s.cfg.hdr ∧ (∀ a, a ≠ 0 → t.byteAt .packet a = s.byteAt .packet a)) ∧
      exec .ack s = .next { s with ports := .feed .ackReceived } ∧
      exec .nak s = .next { s with ports := .feed .nakReceived } ∧
      exec .iam s = .next { s with ports := .feed .iamReceived } ∧
      ((Instr.noise b).wf s.cfg = true → exec (.noise b) s = .next { s with ports := .feed .inProgress }))

/-- Rule R62, last row, and conflict C2: outside AwaitHeader no byte of the line has a meaning of its own; it is fed as
data, and no control result ever comes back. That a byte of the line in a trace is fed at all, and not put into the
queue, is THE MODEL'S CHOICE (log entry 8). -/
def Obligations.OutsideIdleEveryByteIsData : Prop :=
  ∀ (b : Byte) (s : State) (rest : List Input), s.state ≠ .awaitHeader →
    decode s.cfg s.state (.wire b :: rest) = .ok (.feed b, rest) ∧
    (∀ t, exec (.feed b) s = .next t →
      t.result ≠ some .ackReceived ∧ t.result ≠ some .nakReceived ∧ t.result ≠ some .iamReceived ∧
      (s.state = .awaitPayload → t.byteAt .packet s.writeIndex = b))

/-- Rule R53: the byte-at-a-time decoder finds the messages of the line. From idle, feeding exactly the bytes of the
message at the front gives InProgress until its last byte, then the message's own result, and the decoder is idle
again; a good packet is in `outbuf` and nothing else writes it. -/
def Obligations.DecoderFindsMessageBoundaries : Prop :=
  ∀ (s : State) (bytes rest : List Byte) (m : Message), s.cfg.legal = true → s.state = .awaitHeader →
    readMessage s.cfg bytes = (m, rest) → m ≠ .incomplete →
    ∃ used t, bytes = used ++ rest ∧ used ≠ [] ∧
      feedAll used s = .next (List.replicate (used.length - 1) .inProgress ++ [m.result], t) ∧
      t.state = .awaitHeader ∧
      (∀ payload, m = .packet payload →
        used = frame s.cfg payload ∧ ∀ a (h : a < used.length), t.byteAt .outbuf a = used[a]) ∧
      ((∀ payload, m ≠ .packet payload) → t.outbuf = s.outbuf)

/-- Rule R99: the round trip. Whatever a block sends for a payload, an idle decoder of the same parameters answers
with `size + 2` times InProgress and then PacketReceived; the emitted bytes are in `outbuf` and the decoder is idle. -/
def Obligations.SendThenFeedRoundTrip : Prop :=
  ∀ (e u s : State) (payload sent : List Byte), s.cfg.legal = true → e.cfg = s.cfg →
    payload.length ≤ s.cfg.maxPay → exec (.send payload) e = .next u → u.txlog = e.txlog ++ sent →
    s.state = .awaitHeader →
    ∃ t, feedAll sent s =
        .next (List.replicate (payload.length + 2) .inProgress ++ [.packetReceived], t) ∧
      sent.length = payload.length + 3 ∧
      (∀ a (h : a < sent.length), t.byteAt .outbuf a = sent[a]) ∧ t.state = .awaitHeader

/-- Rule R92 (source property S6): corrupting exactly the checksum byte, or exactly one payload byte, of an otherwise
valid packet yields ChecksumError and leaves `outbuf` alone. -/
def Obligations.CorruptionYieldsChecksumError : Prop :=
  ∀ (s : State) (payload : List Byte), s.cfg.legal = true → s.state = .awaitHeader →
    payload.length ≤ s.cfg.maxPay →
    (∀ x, x ≠ xorBytes payload →
      ∃ t, feedAll (s.cfg.hdr :: BitVec.ofNat 8 payload.length :: payload ++ [x]) s =
          .next (List.replicate (payload.length + 2) .inProgress ++ [.checksumError], t) ∧
        t.state = .awaitHeader ∧ t.outbuf = s.outbuf) ∧
    (∀ k (hk : k < payload.length) (b : Byte), b ≠ payload[k] →
      ∃ t, feedAll (s.cfg.hdr :: BitVec.ofNat 8 payload.length :: payload.set k b ++ [xorBytes payload]) s =
          .next (List.replicate (payload.length + 2) .inProgress ++ [.checksumError], t) ∧
        t.state = .awaitHeader ∧ t.outbuf = s.outbuf)

/-! ### The encoder -/

/-- Rule R95: SEND. It appends header, size, payload and the exclusive-or of the payload as one call of the transport
and writes nothing inside the block; a size above `MAXPAY` is refused. -/
def Obligations.SendFramesThePayload : Prop :=
  ∀ (payload : List Byte) (s : State),
    encode s.cfg (.send payload) =
      .cw (0x7#4 ++ BitVec.ofNat 8 payload.length) :: payload.map (fun b => .cw (0x9#4 ++ b)) ∧
    (payload.length ≤ s.cfg.maxPay →
      ∃ bytes,
        bytes = s.cfg.hdr :: BitVec.ofNat 8 payload.length :: payload ++ [payload.foldl (· ^^^ ·) 0] ∧
        bytes.length = payload.length + 3 ∧
        exec (.send payload) s = .next { s with txlog := s.txlog ++ bytes, ports := .send bytes }) ∧
    (s.cfg.maxPay < payload.length → exec (.send payload) s = .refused .payloadTooLong)

/-- Rule R96: SENDCTL, its three selectors. -/
def Obligations.SendctlSendsOneControlCode : Prop :=
  ∀ s : State,
    encode s.cfg .sendctlAck = [.cw 0x800] ∧ encode s.cfg .sendctlNak = [.cw 0x801] ∧
    encode s.cfg .sendctlIam = [.cw 0x802] ∧
    exec .sendctlAck s =
      .next { s with txlog := s.txlog ++ [s.cfg.ack], ports := .send [s.cfg.ack] } ∧
    exec .sendctlNak s =
      .next { s with txlog := s.txlog ++ [s.cfg.nak], ports := .send [s.cfg.nak] } ∧
    exec .sendctlIam s =
      .next { s with txlog := s.txlog ++ [s.cfg.iam], ports := .send [s.cfg.iam] }

/-! ### The whole machine -/

/-- Rules R7, R26: who writes what. Each operation leaves everything alone but the state its agent owns. -/
def Obligations.OwnersAloneWriteTheirState : Prop :=
  ∀ (i : Instr) (s t : State), exec i s = .next t →
    (agentOf i = .producer → t = { s with buf := t.buf, head := t.head, ports := t.ports }) ∧
    (agentOf i = .consumer →
      t = { s with tail := t.tail, state := t.state, packet := t.packet, writeIndex := t.writeIndex,
                   checksum := t.checksum, outbuf := t.outbuf, txlog := t.txlog, ports := t.ports,
                   draws := t.draws }) ∧
    (agentOf i = .headSynchroniser → t = { s with headRd := t.headRd, ports := t.ports }) ∧
    (agentOf i = .tailSynchroniser → t = { s with tailWr := t.tailWr, ports := t.ports }) ∧
    (agentOf i = .bothSynchronisers → t = { s with headRd := t.headRd, tailWr := t.tailWr, ports := t.ports }) ∧
    (agentOf i = .initialiser →
      t = { s with head := t.head, tail := t.tail, headRd := t.headRd, tailWr := t.tailWr, ports := t.ports })

/-- Rule R122: QINIT and DINIT write disjoint state, so their order does not matter. -/
def Obligations.InitialisersCommute : Prop :=
  ∀ s : State, ∃ t, runOps [.qinit, .dinit] s = .next t ∧ runOps [.dinit, .qinit] s = .next t

/-- The invariant holds at reset. -/
def Obligations.ResetIsSafe : Prop := Inv State.reset

/-- Rules R15, R18, R19, R21, R32: from every safe state, whatever the environment makes happen next, a step leads to
a safe state. -/
def Obligations.StepKeepsTheInvariant : Prop :=
  ∀ s s' : State, Inv s → step s = .next s' → Inv s'

/-- Rules R32, R105: from a safe state no operation faults, and every operation completes but for the ones the spec
gives no meaning: a DAT standing alone, a SEND above `MAXPAY`, and a synchroniser step that is not enabled. -/
def Obligations.SafeStatesNeverFault : Prop :=
  ∀ (i : Instr) (s : State), Inv s → (∀ b, i ≠ .dat b) → (∀ p, i = .send p → p.length ≤ s.cfg.maxPay) →
    (∀ k, i = .synch k → k ≤ s.cfg.dist s.headSeen s.head) →
    (∀ k, i = .synct k → k ≤ s.cfg.dist s.tailSeen s.tail) →
    ∃ t, exec i s = .next t

/-- THE MODEL'S CHOICE (log entry 16, DESIGN CHOICE): an access outside an array stops with a fault that names the
array and the index. The spec says only that no such access happens (rules R32, R138), and no safe state makes one
(`SafeStatesNeverFault`); this is about states that no run reaches. -/
def Obligations.AccessOutsideAnArrayFaults : Prop :=
  ∀ (b : Byte) (s : State),
    (s.cfg.cap ≤ s.head → s.fullW = false → exec (.put b) s = .fault (.outsideArray .buf s.head)) ∧
    (s.cfg.cap ≤ s.tail → s.emptyR = false → exec .get s = .fault (.outsideArray .buf s.tail)) ∧
    ((s.state = .awaitPayload ∨ s.state = .awaitChecksum) → s.cfg.packetMax ≤ s.writeIndex →
      exec (.feed b) s = .fault (.outsideArray .packet s.writeIndex)) ∧
    (s.state = .awaitChecksum → b = s.checksum → s.writeIndex < s.cfg.packetMax →
      s.cfg.maxPay < (s.byteAt .packet 1).toNat →
      exec (.feed b) s = .fault (.outsideArray .packet s.cfg.packetMax))
end

