-- ==== Sys2Proof/Laws/Decode.lean ====
section
/-! SUPPORT. The two fields of a command word are what it was made of, and the DAT words of a SEND are read back
(`30_encoding.md` rules R57, R59). -/

namespace Sys2Proof

/-- One bit of a command word: `arg` below bit 8, `op` from there on. -/
theorem getLsbD_commandWord (op : BitVec 4) (arg : Byte) (i : Nat) :
    (commandWord op arg).getLsbD i = if i < 8 then arg.getLsbD i else op.getLsbD (i - 8) := by
  have h := BitVec.getLsbD_append (x := op) (y := arg) (i := i)
  split
  · rw [if_pos ‹_›] at h; exact h
  · rw [if_neg ‹_›] at h; exact h

@[simp] theorem opField_commandWord (op : BitVec 4) (arg : Byte) : opField (commandWord op arg) = op := by
  apply BitVec.eq_of_getLsbD_eq
  intro i hi
  simp [opField, hi, getLsbD_commandWord]

@[simp] theorem argField_commandWord (op : BitVec 4) (arg : Byte) : argField (commandWord op arg) = arg := by
  apply BitVec.eq_of_getLsbD_eq
  intro i hi
  simp [argField, hi, getLsbD_commandWord]

/-- A command word is made of its two fields. -/
theorem commandWord_fields (w : CommandWord) : commandWord (opField w) (argField w) = w := by
  apply BitVec.eq_of_getLsbD_eq
  intro i hi
  simp only [getLsbD_commandWord, opField, argField, BitVec.getLsbD_extractLsb']
  split
  · simp [*]
  · simp [show i - 8 < 4 by omega, show 8 + (i - 8) = i by omega]

/-- The words of a payload are read back as the payload. -/
theorem takeDats_map (payload : List Byte) (rest : List Input) :
    takeDats payload.length (payload.map (fun b => Input.cw (commandWord 0x9 b)) ++ rest) =
      some (payload, rest) := by
  induction payload with
  | nil => simp [takeDats]
  | cons b payload ih => simp only [List.length_cons, List.map_cons, List.cons_append, takeDats,
      opField_commandWord, argField_commandWord, ih, if_true]

/-- What is read as a payload was the words of it. -/
theorem takeDats_eq_some {n : Nat} {items left : List Input} {payload : List Byte}
    (h : takeDats n items = some (payload, left)) :
    payload.length = n ∧ items = payload.map (fun b => Input.cw (commandWord 0x9 b)) ++ left := by
  induction n generalizing items payload with
  | zero => simp only [takeDats, Option.some.injEq, Prod.mk.injEq] at h; simp [← h.1, h.2]
  | succ n ih =>
    unfold takeDats at h
    split at h
    · simp_all
    · rename_i w rest hn
      cases hn
      split at h
      case isFalse => cases h
      case isTrue hop =>
        split at h
        case h_2 => cases h
        case h_1 q l hq =>
          cases h
          obtain ⟨h1, h2⟩ := ih hq
          refine ⟨by simp [h1], ?_⟩
          rw [List.map_cons, List.cons_append, ← h2, ← hop, commandWord_fields]
    · cases h

end Sys2Proof
end

