-- ==== Sys2Proof/Laws/State.lean ====
section
/-! SUPPORT. For each named update of the block, one lemma per field: what the field is after it. -/

namespace Sys2Proof.Machine


/-! `report` writes the outputs alone. -/

@[simp] theorem State.report_cfg (s : State) (p : Ports) : (s.report p).cfg = s.cfg := rfl
@[simp] theorem State.report_buf (s : State) (p : Ports) : (s.report p).buf = s.buf := rfl
@[simp] theorem State.report_head (s : State) (p : Ports) : (s.report p).head = s.head := rfl
@[simp] theorem State.report_tail (s : State) (p : Ports) : (s.report p).tail = s.tail := rfl
@[simp] theorem State.report_headRd (s : State) (p : Ports) : (s.report p).headRd = s.headRd := rfl
@[simp] theorem State.report_tailWr (s : State) (p : Ports) : (s.report p).tailWr = s.tailWr := rfl
@[simp] theorem State.report_state (s : State) (p : Ports) : (s.report p).state = s.state := rfl
@[simp] theorem State.report_packet (s : State) (p : Ports) : (s.report p).packet = s.packet := rfl
@[simp] theorem State.report_writeIndex (s : State) (p : Ports) : (s.report p).writeIndex = s.writeIndex := rfl
@[simp] theorem State.report_checksum (s : State) (p : Ports) : (s.report p).checksum = s.checksum := rfl
@[simp] theorem State.report_outbuf (s : State) (p : Ports) : (s.report p).outbuf = s.outbuf := rfl
@[simp] theorem State.report_txlog (s : State) (p : Ports) : (s.report p).txlog = s.txlog := rfl
@[simp] theorem State.report_ports (s : State) (p : Ports) : (s.report p).ports = p := rfl
@[simp] theorem State.report_inputs (s : State) (p : Ports) : (s.report p).inputs = s.inputs := rfl
@[simp] theorem State.report_draws (s : State) (p : Ports) : (s.report p).draws = s.draws := rfl

/-! `setHeadRd` writes the read domain's copy alone, and only with `CDC = gray`. -/

@[simp] theorem State.setHeadRd_cfg (s : State) (v : Nat) : (s.setHeadRd v).cfg = s.cfg := by
  unfold State.setHeadRd; split <;> rfl
@[simp] theorem State.setHeadRd_buf (s : State) (v : Nat) : (s.setHeadRd v).buf = s.buf := by
  unfold State.setHeadRd; split <;> rfl
@[simp] theorem State.setHeadRd_head (s : State) (v : Nat) : (s.setHeadRd v).head = s.head := by
  unfold State.setHeadRd; split <;> rfl
@[simp] theorem State.setHeadRd_tail (s : State) (v : Nat) : (s.setHeadRd v).tail = s.tail := by
  unfold State.setHeadRd; split <;> rfl
@[simp] theorem State.setHeadRd_tailWr (s : State) (v : Nat) : (s.setHeadRd v).tailWr = s.tailWr := by
  unfold State.setHeadRd; split <;> rfl
@[simp] theorem State.setHeadRd_state (s : State) (v : Nat) : (s.setHeadRd v).state = s.state := by
  unfold State.setHeadRd; split <;> rfl
@[simp] theorem State.setHeadRd_packet (s : State) (v : Nat) : (s.setHeadRd v).packet = s.packet := by
  unfold State.setHeadRd; split <;> rfl
@[simp] theorem State.setHeadRd_writeIndex (s : State) (v : Nat) : (s.setHeadRd v).writeIndex = s.writeIndex := by
  unfold State.setHeadRd; split <;> rfl
@[simp] theorem State.setHeadRd_checksum (s : State) (v : Nat) : (s.setHeadRd v).checksum = s.checksum := by
  unfold State.setHeadRd; split <;> rfl
@[simp] theorem State.setHeadRd_outbuf (s : State) (v : Nat) : (s.setHeadRd v).outbuf = s.outbuf := by
  unfold State.setHeadRd; split <;> rfl
@[simp] theorem State.setHeadRd_txlog (s : State) (v : Nat) : (s.setHeadRd v).txlog = s.txlog := by
  unfold State.setHeadRd; split <;> rfl
@[simp] theorem State.setHeadRd_ports (s : State) (v : Nat) : (s.setHeadRd v).ports = s.ports := by
  unfold State.setHeadRd; split <;> rfl
@[simp] theorem State.setHeadRd_inputs (s : State) (v : Nat) : (s.setHeadRd v).inputs = s.inputs := by
  unfold State.setHeadRd; split <;> rfl
@[simp] theorem State.setHeadRd_draws (s : State) (v : Nat) : (s.setHeadRd v).draws = s.draws := by
  unfold State.setHeadRd; split <;> rfl
@[simp] theorem State.setHeadRd_headRd (s : State) (v : Nat) :
    (s.setHeadRd v).headRd = if s.cfg.cdc = .gray then v else s.headRd := by
  unfold State.setHeadRd; split <;> simp_all

/-! `setTailWr` writes the write domain's copy alone, and only with `CDC = gray`. -/

@[simp] theorem State.setTailWr_cfg (s : State) (v : Nat) : (s.setTailWr v).cfg = s.cfg := by
  unfold State.setTailWr; split <;> rfl
@[simp] theorem State.setTailWr_buf (s : State) (v : Nat) : (s.setTailWr v).buf = s.buf := by
  unfold State.setTailWr; split <;> rfl
@[simp] theorem State.setTailWr_head (s : State) (v : Nat) : (s.setTailWr v).head = s.head := by
  unfold State.setTailWr; split <;> rfl
@[simp] theorem State.setTailWr_tail (s : State) (v : Nat) : (s.setTailWr v).tail = s.tail := by
  unfold State.setTailWr; split <;> rfl
@[simp] theorem State.setTailWr_headRd (s : State) (v : Nat) : (s.setTailWr v).headRd = s.headRd := by
  unfold State.setTailWr; split <;> rfl
@[simp] theorem State.setTailWr_state (s : State) (v : Nat) : (s.setTailWr v).state = s.state := by
  unfold State.setTailWr; split <;> rfl
@[simp] theorem State.setTailWr_packet (s : State) (v : Nat) : (s.setTailWr v).packet = s.packet := by
  unfold State.setTailWr; split <;> rfl
@[simp] theorem State.setTailWr_writeIndex (s : State) (v : Nat) : (s.setTailWr v).writeIndex = s.writeIndex := by
  unfold State.setTailWr; split <;> rfl
@[simp] theorem State.setTailWr_checksum (s : State) (v : Nat) : (s.setTailWr v).checksum = s.checksum := by
  unfold State.setTailWr; split <;> rfl
@[simp] theorem State.setTailWr_outbuf (s : State) (v : Nat) : (s.setTailWr v).outbuf = s.outbuf := by
  unfold State.setTailWr; split <;> rfl
@[simp] theorem State.setTailWr_txlog (s : State) (v : Nat) : (s.setTailWr v).txlog = s.txlog := by
  unfold State.setTailWr; split <;> rfl
@[simp] theorem State.setTailWr_ports (s : State) (v : Nat) : (s.setTailWr v).ports = s.ports := by
  unfold State.setTailWr; split <;> rfl
@[simp] theorem State.setTailWr_inputs (s : State) (v : Nat) : (s.setTailWr v).inputs = s.inputs := by
  unfold State.setTailWr; split <;> rfl
@[simp] theorem State.setTailWr_draws (s : State) (v : Nat) : (s.setTailWr v).draws = s.draws := by
  unfold State.setTailWr; split <;> rfl
@[simp] theorem State.setTailWr_tailWr (s : State) (v : Nat) :
    (s.setTailWr v).tailWr = if s.cfg.cdc = .gray then v else s.tailWr := by
  unfold State.setTailWr; split <;> simp_all

/-! `setMem` writes one storage space. -/

@[simp] theorem State.setMem_cfg (s : State) (sp : Space) (m : Memory) : (s.setMem sp m).cfg = s.cfg := by
  cases sp <;> rfl
@[simp] theorem State.setMem_buf (s : State) (sp : Space) (m : Memory) :
    (s.setMem sp m).buf = if sp = .buf then m else s.buf := by cases sp <;> rfl
@[simp] theorem State.setMem_head (s : State) (sp : Space) (m : Memory) : (s.setMem sp m).head = s.head := by
  cases sp <;> rfl
@[simp] theorem State.setMem_tail (s : State) (sp : Space) (m : Memory) : (s.setMem sp m).tail = s.tail := by
  cases sp <;> rfl
@[simp] theorem State.setMem_headRd (s : State) (sp : Space) (m : Memory) : (s.setMem sp m).headRd = s.headRd := by
  cases sp <;> rfl
@[simp] theorem State.setMem_tailWr (s : State) (sp : Space) (m : Memory) : (s.setMem sp m).tailWr = s.tailWr := by
  cases sp <;> rfl
@[simp] theorem State.setMem_state (s : State) (sp : Space) (m : Memory) : (s.setMem sp m).state = s.state := by
  cases sp <;> rfl
@[simp] theorem State.setMem_packet (s : State) (sp : Space) (m : Memory) :
    (s.setMem sp m).packet = if sp = .packet then m else s.packet := by cases sp <;> rfl
@[simp] theorem State.setMem_writeIndex (s : State) (sp : Space) (m : Memory) : (s.setMem sp m).writeIndex = s.writeIndex := by
  cases sp <;> rfl
@[simp] theorem State.setMem_checksum (s : State) (sp : Space) (m : Memory) : (s.setMem sp m).checksum = s.checksum := by
  cases sp <;> rfl
@[simp] theorem State.setMem_outbuf (s : State) (sp : Space) (m : Memory) :
    (s.setMem sp m).outbuf = if sp = .outbuf then m else s.outbuf := by cases sp <;> rfl
@[simp] theorem State.setMem_txlog (s : State) (sp : Space) (m : Memory) : (s.setMem sp m).txlog = s.txlog := by
  cases sp <;> rfl
@[simp] theorem State.setMem_ports (s : State) (sp : Space) (m : Memory) : (s.setMem sp m).ports = s.ports := by
  cases sp <;> rfl
@[simp] theorem State.setMem_inputs (s : State) (sp : Space) (m : Memory) : (s.setMem sp m).inputs = s.inputs := by
  cases sp <;> rfl
@[simp] theorem State.setMem_draws (s : State) (sp : Space) (m : Memory) : (s.setMem sp m).draws = s.draws := by
  cases sp <;> rfl

/-! `takeError` writes the decoder's state alone, and only for the two framing errors. -/

@[simp] theorem takeError_cfg (e : BlockError) (s : State) : (takeError e s).cfg = s.cfg := by cases e <;> rfl
@[simp] theorem takeError_buf (e : BlockError) (s : State) : (takeError e s).buf = s.buf := by cases e <;> rfl
@[simp] theorem takeError_head (e : BlockError) (s : State) : (takeError e s).head = s.head := by cases e <;> rfl
@[simp] theorem takeError_tail (e : BlockError) (s : State) : (takeError e s).tail = s.tail := by cases e <;> rfl
@[simp] theorem takeError_headRd (e : BlockError) (s : State) : (takeError e s).headRd = s.headRd := by cases e <;> rfl
@[simp] theorem takeError_tailWr (e : BlockError) (s : State) : (takeError e s).tailWr = s.tailWr := by cases e <;> rfl
@[simp] theorem takeError_state (e : BlockError) (s : State) :
    (takeError e s).state = if e = .sizeError ∨ e = .checksumError then .awaitHeader else s.state := by
  cases e <;> simp [takeError]
@[simp] theorem takeError_packet (e : BlockError) (s : State) : (takeError e s).packet = s.packet := by cases e <;> rfl
@[simp] theorem takeError_writeIndex (e : BlockError) (s : State) : (takeError e s).writeIndex = s.writeIndex := by cases e <;> rfl
@[simp] theorem takeError_checksum (e : BlockError) (s : State) : (takeError e s).checksum = s.checksum := by cases e <;> rfl
@[simp] theorem takeError_outbuf (e : BlockError) (s : State) : (takeError e s).outbuf = s.outbuf := by cases e <;> rfl
@[simp] theorem takeError_txlog (e : BlockError) (s : State) : (takeError e s).txlog = s.txlog := by cases e <;> rfl
@[simp] theorem takeError_ports (e : BlockError) (s : State) : (takeError e s).ports = s.ports := by cases e <;> rfl
@[simp] theorem takeError_inputs (e : BlockError) (s : State) : (takeError e s).inputs = s.inputs := by cases e <;> rfl
@[simp] theorem takeError_draws (e : BlockError) (s : State) : (takeError e s).draws = s.draws := by cases e <;> rfl

/-! `emit` writes the transmission record and the send port alone. -/

@[simp] theorem emit_cfg (bytes : List Byte) (s : State) : (emit bytes s).cfg = s.cfg := rfl
@[simp] theorem emit_buf (bytes : List Byte) (s : State) : (emit bytes s).buf = s.buf := rfl
@[simp] theorem emit_head (bytes : List Byte) (s : State) : (emit bytes s).head = s.head := rfl
@[simp] theorem emit_tail (bytes : List Byte) (s : State) : (emit bytes s).tail = s.tail := rfl
@[simp] theorem emit_headRd (bytes : List Byte) (s : State) : (emit bytes s).headRd = s.headRd := rfl
@[simp] theorem emit_tailWr (bytes : List Byte) (s : State) : (emit bytes s).tailWr = s.tailWr := rfl
@[simp] theorem emit_state (bytes : List Byte) (s : State) : (emit bytes s).state = s.state := rfl
@[simp] theorem emit_packet (bytes : List Byte) (s : State) : (emit bytes s).packet = s.packet := rfl
@[simp] theorem emit_writeIndex (bytes : List Byte) (s : State) : (emit bytes s).writeIndex = s.writeIndex := rfl
@[simp] theorem emit_checksum (bytes : List Byte) (s : State) : (emit bytes s).checksum = s.checksum := rfl
@[simp] theorem emit_outbuf (bytes : List Byte) (s : State) : (emit bytes s).outbuf = s.outbuf := rfl
@[simp] theorem emit_txlog (bytes : List Byte) (s : State) : (emit bytes s).txlog = s.txlog ++ bytes := rfl
@[simp] theorem emit_ports (bytes : List Byte) (s : State) : (emit bytes s).ports = .send bytes := rfl
@[simp] theorem emit_inputs (bytes : List Byte) (s : State) : (emit bytes s).inputs = s.inputs := rfl
@[simp] theorem emit_draws (bytes : List Byte) (s : State) : (emit bytes s).draws = s.draws := rfl

/-! `idleDecoder` writes the decoder's registers alone. -/

@[simp] theorem idleDecoder_cfg (s : State) : (idleDecoder s).cfg = s.cfg := rfl
@[simp] theorem idleDecoder_buf (s : State) : (idleDecoder s).buf = s.buf := rfl
@[simp] theorem idleDecoder_head (s : State) : (idleDecoder s).head = s.head := rfl
@[simp] theorem idleDecoder_tail (s : State) : (idleDecoder s).tail = s.tail := rfl
@[simp] theorem idleDecoder_headRd (s : State) : (idleDecoder s).headRd = s.headRd := rfl
@[simp] theorem idleDecoder_tailWr (s : State) : (idleDecoder s).tailWr = s.tailWr := rfl
@[simp] theorem idleDecoder_state (s : State) : (idleDecoder s).state = .awaitHeader := rfl
@[simp] theorem idleDecoder_packet (s : State) : (idleDecoder s).packet = s.packet := rfl
@[simp] theorem idleDecoder_writeIndex (s : State) : (idleDecoder s).writeIndex = 0 := rfl
@[simp] theorem idleDecoder_checksum (s : State) : (idleDecoder s).checksum = 0 := rfl
@[simp] theorem idleDecoder_outbuf (s : State) : (idleDecoder s).outbuf = s.outbuf := rfl
@[simp] theorem idleDecoder_txlog (s : State) : (idleDecoder s).txlog = s.txlog := rfl
@[simp] theorem idleDecoder_ports (s : State) : (idleDecoder s).ports = s.ports := rfl
@[simp] theorem idleDecoder_inputs (s : State) : (idleDecoder s).inputs = s.inputs := rfl
@[simp] theorem idleDecoder_draws (s : State) : (idleDecoder s).draws = s.draws := rfl

/-! `clearQueue` writes the four indices alone. -/

@[simp] theorem clearQueue_cfg (s : State) : (clearQueue s).cfg = s.cfg := by simp [clearQueue]
@[simp] theorem clearQueue_buf (s : State) : (clearQueue s).buf = s.buf := by simp [clearQueue]
@[simp] theorem clearQueue_head (s : State) : (clearQueue s).head = 0 := by simp [clearQueue]
@[simp] theorem clearQueue_tail (s : State) : (clearQueue s).tail = 0 := by simp [clearQueue]
@[simp] theorem clearQueue_headRd (s : State) :
    (clearQueue s).headRd = if s.cfg.cdc = .gray then 0 else s.headRd := by simp [clearQueue]
@[simp] theorem clearQueue_tailWr (s : State) :
    (clearQueue s).tailWr = if s.cfg.cdc = .gray then 0 else s.tailWr := by simp [clearQueue]
@[simp] theorem clearQueue_state (s : State) : (clearQueue s).state = s.state := by simp [clearQueue]
@[simp] theorem clearQueue_packet (s : State) : (clearQueue s).packet = s.packet := by simp [clearQueue]
@[simp] theorem clearQueue_writeIndex (s : State) : (clearQueue s).writeIndex = s.writeIndex := by simp [clearQueue]
@[simp] theorem clearQueue_checksum (s : State) : (clearQueue s).checksum = s.checksum := by simp [clearQueue]
@[simp] theorem clearQueue_outbuf (s : State) : (clearQueue s).outbuf = s.outbuf := by simp [clearQueue]
@[simp] theorem clearQueue_txlog (s : State) : (clearQueue s).txlog = s.txlog := by simp [clearQueue]
@[simp] theorem clearQueue_ports (s : State) : (clearQueue s).ports = s.ports := by simp [clearQueue]
@[simp] theorem clearQueue_inputs (s : State) : (clearQueue s).inputs = s.inputs := by simp [clearQueue]
@[simp] theorem clearQueue_draws (s : State) : (clearQueue s).draws = s.draws := by simp [clearQueue]

/-! What each side sees of the other's index after an update (`10_state.md` rule R14). -/

theorem State.headSeen_gray {s : State} (h : s.cfg.cdc = .gray) : s.headSeen = s.headRd := by
  simp [State.headSeen, h]
theorem State.headSeen_atomic {s : State} (h : s.cfg.cdc = .atomic) : s.headSeen = s.head := by
  simp [State.headSeen, h]
theorem State.tailSeen_gray {s : State} (h : s.cfg.cdc = .gray) : s.tailSeen = s.tailWr := by
  simp [State.tailSeen, h]
theorem State.tailSeen_atomic {s : State} (h : s.cfg.cdc = .atomic) : s.tailSeen = s.tail := by
  simp [State.tailSeen, h]
/-- What the read domain sees depends on three fields. -/
theorem State.headSeen_congr {s t : State} (hc : t.cfg = s.cfg) (h : t.head = s.head) (hr : t.headRd = s.headRd) :
    t.headSeen = s.headSeen := by simp [State.headSeen, hc, h, hr]
/-- What the write domain sees depends on three fields. -/
theorem State.tailSeen_congr {s t : State} (hc : t.cfg = s.cfg) (h : t.tail = s.tail) (hw : t.tailWr = s.tailWr) :
    t.tailSeen = s.tailSeen := by simp [State.tailSeen, hc, h, hw]
@[simp] theorem clearQueue_headSeen (s : State) : (clearQueue s).headSeen = 0 := by
  unfold State.headSeen; split <;> simp_all
@[simp] theorem clearQueue_tailSeen (s : State) : (clearQueue s).tailSeen = 0 := by
  unfold State.tailSeen; split <;> simp_all
@[simp] theorem State.report_headSeen (s : State) (p : Ports) : (s.report p).headSeen = s.headSeen := rfl
@[simp] theorem State.report_tailSeen (s : State) (p : Ports) : (s.report p).tailSeen = s.tailSeen := rfl
@[simp] theorem State.report_mem (s : State) (p : Ports) (sp : Space) : (s.report p).mem sp = s.mem sp := by
  cases sp <;> rfl
@[simp] theorem State.report_byteAt (s : State) (p : Ports) (sp : Space) (a : Nat) :
    (s.report p).byteAt sp a = s.byteAt sp a := by simp [State.byteAt]
@[simp] theorem State.setMem_mem_same (s : State) (sp : Space) (m : Memory) : (s.setMem sp m).mem sp = m := by
  cases sp <;> rfl
theorem State.setMem_mem_other (s : State) (m : Memory) {sp sp' : Space} (h : sp' ≠ sp) :
    (s.setMem sp m).mem sp' = s.mem sp' := by
  cases sp <;> cases sp' <;> first | rfl | exact absurd rfl h

end Sys2Proof.Machine
end

