-- ==== Sys2Proof/Laws/Ops.lean ====
section
/-! SUPPORT. What the shared operations over storage can do, said once: reading after writing, the canonical form, and
the only ways a read, a write and a copy can end. -/

namespace Sys2Proof.Machine

/-! Sequencing. -/

@[simp] theorem andThen_next {α β : Type} (a : α) (k : α → Run β) : andThen (.next a) k = k a := rfl
@[simp] theorem andThen_fault {α β : Type} (f : Fault) (k : α → Run β) : andThen (.fault f) k = .fault f := rfl
@[simp] theorem andThen_refused {α β : Type} (r : Refusal) (k : α → Run β) : andThen (.refused r) k = .refused r := rfl

/-- A sequence ends in a value exactly when both of its parts do. -/
theorem andThen_eq_next {α β : Type} {o : Run α} {k : α → Run β} {b : β} :
    andThen o k = .next b ↔ ∃ a, o = .next a ∧ k a = .next b := by
  cases o <;> simp

/-! One slot. -/

@[simp] theorem Memory.find_store_same (m : Memory) (a : Nat) (v : Byte) : (m.store a v).find a = some v := by
  induction m with
  | nil => simp [Memory.store, Memory.find]
  | cons c rest ih =>
    obtain ⟨x, w⟩ := c
    simp only [Memory.store]
    split
    · simp [Memory.find]
    · split
      · simp [Memory.find]
      · rename_i h1 h2
        simp [Memory.find, Ne.symm h2, ih]

theorem Memory.find_store_other (m : Memory) (v : Byte) {a a' : Nat} (h : a' ≠ a) :
    (m.store a v).find a' = m.find a' := by
  induction m with
  | nil => simp [Memory.store, Memory.find, Ne.symm h]
  | cons c rest ih =>
    obtain ⟨x, w⟩ := c
    simp only [Memory.store]
    split
    · simp [Memory.find, Ne.symm h]
    · split
      · rename_i h2; subst h2; simp [Memory.find, Ne.symm h]
      · simp [Memory.find, ih]

theorem Memory.find_store (m : Memory) (a a' : Nat) (v : Byte) :
    (m.store a v).find a' = if a' = a then some v else m.find a' := by
  split
  · simp_all
  · exact Memory.find_store_other m v ‹_›

/-- A store keeps every listed slot listed. -/
theorem Memory.find_store_isSome {m : Memory} {a a' : Nat} {v : Byte} (h : (m.find a').isSome = true) :
    ((m.store a v).find a').isSome = true := by
  rw [Memory.find_store]; split <;> simp_all

/-! The canonical form is kept by every store, the only operation that changes a storage space. -/

theorem Memory.risingFrom_mono {lo lo' : Nat} {m : Memory} (hl : lo' ≤ lo) (h : m.risingFrom lo = true) :
    m.risingFrom lo' = true := by
  cases m with
  | nil => rfl
  | cons c rest => simp_all [Memory.risingFrom]; omega

theorem Memory.risingFrom_store {lo a : Nat} {v : Byte} {m : Memory} (ha : lo ≤ a) (h : m.risingFrom lo = true) :
    (m.store a v).risingFrom lo = true := by
  induction m generalizing lo with
  | nil => simp [Memory.store, Memory.risingFrom, ha]
  | cons c rest ih =>
    obtain ⟨x, w⟩ := c
    simp only [Memory.risingFrom, Bool.and_eq_true, decide_eq_true_eq] at h
    simp only [Memory.store]
    split
    · simp only [Memory.risingFrom, Bool.and_eq_true, decide_eq_true_eq]
      exact ⟨ha, by omega, h.2⟩
    · split
      · rename_i h2; subst h2
        simpa [Memory.risingFrom] using ⟨ha, h.2⟩
      · simp only [Memory.risingFrom, Bool.and_eq_true, decide_eq_true_eq]
        exact ⟨h.1, ih (by omega) h.2⟩

/-- A store keeps the canonical form. -/
theorem Memory.wf_store {m : Memory} (a : Nat) (v : Byte) (h : m.wf = true) : (m.store a v).wf = true :=
  Memory.risingFrom_store (Nat.zero_le a) h

/-- A store inside the array lists nothing outside it. -/
theorem Memory.within_store {n a : Nat} {v : Byte} {m : Memory} (ha : a < n) (h : m.within n = true) :
    (m.store a v).within n = true := by
  unfold Memory.within at *
  induction m with
  | nil => simpa [Memory.store] using ha
  | cons c rest ih =>
    obtain ⟨x, w⟩ := c
    simp only [List.all_cons, Bool.and_eq_true, decide_eq_true_eq] at h
    simp only [Memory.store]
    split
    · simp [ha, h.1]; simpa using h.2
    · split
      · simp [ha]; simpa using h.2
      · simp only [List.all_cons, Bool.and_eq_true, decide_eq_true_eq]
        exact ⟨h.1, ih h.2⟩

/-- After reset every storage space is in canonical form and inside its array. -/
theorem State.reset_storage (sp : Space) :
    (State.reset.mem sp).wf = true ∧ (State.reset.mem sp).within (State.reset.cfg.size sp) = true := by
  cases sp <;> decide

/-! Bytes of the block. -/

theorem State.byteAt_store (s : State) (sp : Space) (a a' : Nat) (v : Byte) :
    (s.setMem sp ((s.mem sp).store a v)).byteAt sp a' = if a' = a then v else s.byteAt sp a' := by
  simp only [State.byteAt, State.setMem_mem_same, Memory.find_store]; split <;> simp

theorem State.byteAt_setMem_other (s : State) (m : Memory) {sp sp' : Space} (h : sp' ≠ sp) (a : Nat) :
    (s.setMem sp m).byteAt sp' a = s.byteAt sp' a := by
  simp [State.byteAt, State.setMem_mem_other s m h]

/-- A byte read depends on the storage space alone. -/
theorem State.byteAt_congr {s t : State} {sp : Space} (h : t.mem sp = s.mem sp) (a : Nat) :
    t.byteAt sp a = s.byteAt sp a := by simp [State.byteAt, h]

/-- The bytes listed for every slot of a memory determine what is read of it. -/
theorem State.byteAt_of_find {s : State} {sp : Space} {a : Nat} {v : Byte} (h : (s.mem sp).find a = some v) :
    s.byteAt sp a = v := by simp [State.byteAt, h]

/-! The only ways an access can end. -/

theorem memRead_inside {sp : Space} {a : Nat} {s : State} (h : a < s.cfg.size sp) :
    memRead sp a s = .next (s.byteAt sp a) := by simp [memRead, h]

theorem memRead_outside {sp : Space} {a : Nat} {s : State} (h : ¬ a < s.cfg.size sp) :
    memRead sp a s = .fault (.outsideArray sp a) := by simp [memRead, h]

theorem memWrite_inside {sp : Space} {a : Nat} {v : Byte} {s : State} (h : a < s.cfg.size sp) :
    memWrite sp a v s = .next (s.setMem sp ((s.mem sp).store a v)) := by simp [memWrite, h]

theorem memWrite_outside {sp : Space} {a : Nat} {v : Byte} {s : State} (h : ¬ a < s.cfg.size sp) :
    memWrite sp a v s = .fault (.outsideArray sp a) := by simp [memWrite, h]

theorem memRead_eq_next {sp : Space} {a : Nat} {s : State} {v : Byte} :
    memRead sp a s = .next v ↔ a < s.cfg.size sp ∧ s.byteAt sp a = v := by
  unfold memRead; split <;> simp_all

theorem memWrite_eq_next {sp : Space} {a : Nat} {v : Byte} {s t : State} :
    memWrite sp a v s = .next t ↔ a < s.cfg.size sp ∧ s.setMem sp ((s.mem sp).store a v) = t := by
  unfold memWrite; split <;> simp_all

@[simp] theorem zero_lt_size_packet (c : Config) : 0 < c.size .packet := by simp [Config.size, Config.packetMax]
@[simp] theorem one_lt_size_packet (c : Config) : 1 < c.size .packet := by simp [Config.size, Config.packetMax]
theorem size_outbuf (c : Config) : c.size .outbuf = c.packetMax := rfl
theorem size_packet (c : Config) : c.size .packet = c.packetMax := rfl
theorem size_buf (c : Config) : c.size .buf = c.cap := rfl

end Sys2Proof.Machine
end

