-- ==== Sys2Proof/Laws/Decoder.lean ====
section
/-! SUPPORT. What the shared operations of the queue and the decoder can do, said once: the copy to the output
buffer, taking a byte out of the queue, and feeding a byte in each state of the decoder. -/

namespace Sys2Proof.Machine

/-- The output buffer after the copy of `n` bytes (`41_packetdecoder.md` rule R84). -/
def copiedTo (packet outbuf : Memory) : Nat → Memory
  | 0 => outbuf
  | n + 1 => (copiedTo packet outbuf n).store n ((packet.find n).getD (Config.powerUp .packet n))

/-- A copy that stays inside the arrays completes and writes the output buffer alone. -/
theorem copyOut_eq {n : Nat} {s : State} (h : n ≤ s.cfg.packetMax) :
    copyOut n s = .next { s with outbuf := copiedTo s.packet s.outbuf n } := by
  induction n with
  | zero => rfl
  | succ n ih =>
    have hr : n < ({ s with outbuf := copiedTo s.packet s.outbuf n } : State).cfg.size .packet := by
      simp [Config.size]; omega
    have hw : n < ({ s with outbuf := copiedTo s.packet s.outbuf n } : State).cfg.size .outbuf := by
      simp [Config.size]; omega
    simp only [copyOut, ih (by omega), andThen_next, memRead_inside hr, memWrite_inside hw]
    rfl

/-- What each slot of the output buffer lists after the copy. -/
theorem copiedTo_find (packet outbuf : Memory) (n a : Nat) :
    (copiedTo packet outbuf n).find a =
      if a < n then some ((packet.find a).getD (Config.powerUp .packet a)) else outbuf.find a := by
  induction n with
  | zero => simp [copiedTo]
  | succ n ih =>
    rw [copiedTo, Memory.find_store, ih]
    by_cases h1 : a = n
    · simp [h1]
    · by_cases h2 : a < n
      · simp [h1, h2, show a < n + 1 by omega]
      · simp [h1, h2, show ¬ a < n + 1 by omega]

theorem copiedTo_wf {packet outbuf : Memory} (n : Nat) (h : outbuf.wf = true) :
    (copiedTo packet outbuf n).wf = true := by
  induction n with
  | zero => exact h
  | succ n ih => exact Memory.wf_store _ _ ih

theorem copiedTo_within {packet outbuf : Memory} {n m : Nat} (hn : n ≤ m) (h : outbuf.within m = true) :
    (copiedTo packet outbuf n).within m = true := by
  induction n with
  | zero => exact h
  | succ n ih => exact Memory.within_store (by omega) (ih (by omega))

/-- A copy that completes never went outside the arrays. -/
theorem copyOut_le {n : Nat} {s t : State} (h : copyOut n s = .next t) : n ≤ s.cfg.packetMax ∧ t.cfg = s.cfg := by
  induction n generalizing t with
  | zero => cases h; exact ⟨Nat.zero_le _, rfl⟩
  | succ n ih =>
    simp only [copyOut, andThen_eq_next, memWrite_eq_next, memRead_eq_next] at h
    obtain ⟨y, hy, v, ⟨hv, -⟩, -, rfl⟩ := h
    obtain ⟨-, hcfg⟩ := ih hy
    refine ⟨?_, by simpa using hcfg⟩
    rw [hcfg] at hv
    simpa [Config.size, Nat.succ_le_iff] using hv

/-- The only ways taking a byte can end in a value (`40_bytequeue.md` rule R71). -/
theorem takeByte_eq_next {s : State} {r : Option Byte × State} :
    takeByte s = .next r ↔
      (s.tail = s.headSeen ∧ r = (none, s)) ∨
      (s.tail ≠ s.headSeen ∧ s.tail < s.cfg.cap ∧
        r = (some (s.byteAt .buf s.tail), { s with tail := s.cfg.inc s.tail })) := by
  unfold takeByte State.emptyR
  by_cases h : s.tail = s.headSeen
  · simp only [h, beq_self_eq_true, if_true, takeError, Host.Outcome.next.injEq, true_and, ne_eq, not_true_eq_false,
      false_and, or_false]
    exact eq_comm
  · by_cases h2 : s.tail < s.cfg.cap
    · simp only [beq_iff_eq, h, if_false, memRead, Config.size, h2, if_true, andThen_next, Host.Outcome.next.injEq,
        false_and, false_or, ne_eq, not_false_eq_true, true_and]
      exact eq_comm
    · simp [h, memRead, Config.size, h2]

/-- FEED while idle of the header byte (rule R81). -/
theorem feedHeader_hdr (s : State) :
    feedHeader s.cfg.hdr s =
      .next (.inProgress, { s with packet := s.packet.store 0 s.cfg.hdr, state := .awaitLength }) := by
  simp [feedHeader, memWrite_inside, State.setMem, State.mem]

/-- FEED of a length byte always completes (rule R82). -/
theorem feedLength_spec (b : Byte) (s : State) :
    feedLength b s =
      if s.cfg.maxPay < b.toNat then
        .next (.sizeError, { s with packet := s.packet.store 1 b, state := .awaitHeader })
      else
        .next (.inProgress,
          { s with packet := s.packet.store 1 b, checksum := 0, writeIndex := 2,
                   state := if b = 0 then .awaitChecksum else .awaitPayload }) := by
  simp only [feedLength, memWrite_inside (one_lt_size_packet s.cfg), andThen_next, exceedsMax, declaredLength]
  by_cases h : s.cfg.maxPay < b.toNat <;> simp [h, takeError, State.setMem, State.mem]

/-- FEED of a payload byte inside the buffer (rule R83). -/
theorem feedPayload_spec {s : State} (b : Byte) (h : s.writeIndex < s.cfg.packetMax) :
    feedPayload b s =
      .next (.inProgress,
        { s with packet := s.packet.store s.writeIndex b, checksum := s.checksum ^^^ b,
                 writeIndex := s.writeIndex + 1,
                 state := if s.writeIndex + 1 = (s.byteAt .packet 1).toNat + 2 then .awaitChecksum
                          else .awaitPayload }) := by
  have hw : s.writeIndex < s.cfg.size .packet := h
  simp [feedPayload, memRead_inside, memWrite_inside hw, State.setMem, State.mem, declaredLength]

/-- FEED of a checksum byte that does not match (rule R84). -/
theorem feedChecksum_mismatch {b : Byte} {s : State} (h : s.writeIndex < s.cfg.packetMax) (hb : b ≠ s.checksum) :
    feedChecksum b s =
      .next (.checksumError, { s with packet := s.packet.store s.writeIndex b, state := .awaitHeader }) := by
  have hw : s.writeIndex < s.cfg.size .packet := h
  simp [feedChecksum, memRead_inside, memWrite_inside hw, hb, takeError, State.setMem, State.mem]

/-- FEED of a checksum byte that matches (rule R84): the packet with the byte just stored goes to `outbuf`. -/
theorem feedChecksum_match {s : State} (h : s.writeIndex < s.cfg.packetMax)
    (hl : (s.byteAt .packet 1).toNat ≤ s.cfg.maxPay) :
    feedChecksum s.checksum s =
      .next (.packetReceived,
        { s with packet := s.packet.store s.writeIndex s.checksum,
                 outbuf := copiedTo (s.packet.store s.writeIndex s.checksum) s.outbuf
                   ((s.byteAt .packet 1).toNat + 3),
                 state := .awaitHeader }) := by
  have hw : s.writeIndex < s.cfg.size .packet := h
  have hn : (s.byteAt .packet 1).toNat + 3 ≤
      (s.setMem .packet ((s.mem .packet).store s.writeIndex s.checksum)).cfg.packetMax := by
    simp [Config.packetMax]; exact hl
  simp only [feedChecksum, memRead_inside (one_lt_size_packet s.cfg), memWrite_inside hw, andThen_next,
    declaredLength, if_true, copyOut_eq hn]
  rfl

/-- Handing back the result of a FEED ends in a value exactly when the FEED does. -/
theorem feedAndReport_eq_next {b : Byte} {s t : State} :
    feedAndReport b s = .next t ↔ ∃ r u, feedByte b s = .next (r, u) ∧ t = State.report u (.feed r) := by
  simp only [feedAndReport, andThen_eq_next, Prod.exists, Host.Outcome.next.injEq]
  exact ⟨fun ⟨r, u, h, e⟩ => ⟨r, u, h, e.symm⟩, fun ⟨r, u, h, e⟩ => ⟨r, u, h, e.symm⟩⟩

/-- Everything a FEED can do (rules R80 to R84), whatever the state of the block. -/
theorem feedByte_cases {b : Byte} {s u : State} {r : DecodeResult} (h : feedByte b s = .next (r, u)) :
    (s.state = .awaitHeader ∧ b = s.cfg.hdr ∧ r = .inProgress ∧
      u = { s with packet := s.packet.store 0 b, state := .awaitLength }) ∨
    (s.state = .awaitHeader ∧ b ≠ s.cfg.hdr ∧ u = s ∧
      r = (if b = s.cfg.ack then .ackReceived else if b = s.cfg.nak then .nakReceived
           else if b = s.cfg.iam then .iamReceived else .inProgress)) ∨
    (s.state = .awaitLength ∧ s.cfg.maxPay < b.toNat ∧ r = .sizeError ∧
      u = { s with packet := s.packet.store 1 b, state := .awaitHeader }) ∨
    (s.state = .awaitLength ∧ b.toNat ≤ s.cfg.maxPay ∧ r = .inProgress ∧
      u = { s with packet := s.packet.store 1 b, checksum := 0, writeIndex := 2,
                   state := if b = 0 then .awaitChecksum else .awaitPayload }) ∨
    (s.state = .awaitPayload ∧ s.writeIndex < s.cfg.packetMax ∧ r = .inProgress ∧
      u = { s with packet := s.packet.store s.writeIndex b, checksum := s.checksum ^^^ b,
                   writeIndex := s.writeIndex + 1,
                   state := if s.writeIndex + 1 = (s.byteAt .packet 1).toNat + 2 then .awaitChecksum
                            else .awaitPayload }) ∨
    (s.state = .awaitChecksum ∧ s.writeIndex < s.cfg.packetMax ∧ b ≠ s.checksum ∧ r = .checksumError ∧
      u = { s with packet := s.packet.store s.writeIndex b, state := .awaitHeader }) ∨
    (s.state = .awaitChecksum ∧ s.writeIndex < s.cfg.packetMax ∧ b = s.checksum ∧ r = .packetReceived ∧
      (s.byteAt .packet 1).toNat ≤ s.cfg.maxPay ∧
      u = { s with packet := s.packet.store s.writeIndex b,
                   outbuf := copiedTo (s.packet.store s.writeIndex b) s.outbuf ((s.byteAt .packet 1).toNat + 3),
                   state := .awaitHeader }) := by
  unfold feedByte at h
  split at h
  case h_1 hs =>
    by_cases hb : b = s.cfg.hdr
    · subst hb
      rw [feedHeader_hdr] at h
      cases h
      exact .inl ⟨hs, rfl, rfl, rfl⟩
    · refine .inr (.inl ⟨hs, hb, ?_⟩)
      simp only [feedHeader, hb, if_false] at h
      split at h <;> [skip; split at h <;> [skip; split at h]] <;> cases h <;> simp_all
  case h_2 hs =>
    rw [feedLength_spec] at h
    split at h <;> cases h
    · exact .inr (.inr (.inl ⟨hs, ‹_›, rfl, rfl⟩))
    · exact .inr (.inr (.inr (.inl ⟨hs, by omega, rfl, rfl⟩)))
  case h_3 hs =>
    by_cases hw : s.writeIndex < s.cfg.packetMax
    · rw [feedPayload_spec b hw] at h
      cases h
      exact .inr (.inr (.inr (.inr (.inl ⟨hs, hw, rfl, rfl⟩))))
    · have hw' : ¬ s.writeIndex < s.cfg.size .packet := hw
      simp [feedPayload, memRead_inside, memWrite_outside hw'] at h
  case h_4 hs =>
    by_cases hw : s.writeIndex < s.cfg.packetMax
    · by_cases hb : b = s.checksum
      · by_cases hl : (s.byteAt .packet 1).toNat ≤ s.cfg.maxPay
        · subst hb
          rw [feedChecksum_match hw hl] at h
          cases h
          exact .inr (.inr (.inr (.inr (.inr (.inr ⟨hs, hw, rfl, rfl, hl, rfl⟩)))))
        · exfalso
          have hw' : s.writeIndex < s.cfg.size .packet := hw
          simp only [feedChecksum, memRead_inside (one_lt_size_packet s.cfg), memWrite_inside hw', andThen_next, hb,
            if_true, declaredLength, andThen_eq_next] at h
          obtain ⟨x, hx, -⟩ := h
          have := copyOut_le hx
          simp [Config.packetMax] at this
          omega
      · rw [feedChecksum_mismatch hw hb] at h
        cases h
        exact .inr (.inr (.inr (.inr (.inr (.inl ⟨hs, hw, hb, rfl, rfl⟩)))))
    · have hw' : ¬ s.writeIndex < s.cfg.size .packet := hw
      simp [feedChecksum, memRead_inside, memWrite_outside hw'] at h

/-- FEED in each state of the decoder (rule R80). -/
theorem feedByte_awaitHeader {s : State} (h : s.state = .awaitHeader) (b : Byte) : feedByte b s = feedHeader b s := by
  simp [feedByte, h]
theorem feedByte_awaitLength {s : State} (h : s.state = .awaitLength) (b : Byte) : feedByte b s = feedLength b s := by
  simp [feedByte, h]
theorem feedByte_awaitPayload {s : State} (h : s.state = .awaitPayload) (b : Byte) :
    feedByte b s = feedPayload b s := by simp [feedByte, h]
theorem feedByte_awaitChecksum {s : State} (h : s.state = .awaitChecksum) (b : Byte) :
    feedByte b s = feedChecksum b s := by simp [feedByte, h]

/-- A FEED writes the decoder's state alone (rules R26, R80). -/
theorem feedByte_frame {b : Byte} {s u : State} {r : DecodeResult} (h : feedByte b s = .next (r, u)) :
    u = { s with state := u.state, packet := u.packet, writeIndex := u.writeIndex, checksum := u.checksum,
                 outbuf := u.outbuf } := by
  rcases feedByte_cases h with ⟨_, _, _, rfl⟩ | ⟨_, _, rfl, _⟩ | ⟨_, _, _, rfl⟩ | ⟨_, _, _, rfl⟩ | ⟨_, _, _, rfl⟩ |
    ⟨_, _, _, _, rfl⟩ | ⟨_, _, _, _, _, rfl⟩ <;> rfl

/-- A FEED depends on the decoder's state alone: with any other queue, record, ports and inputs it does the same
(rules R26, R80). -/
theorem feedByte_congr {b : Byte} {s u t : State} {r : DecodeResult} (h : feedByte b s = .next (r, u))
    (hc : t.cfg = s.cfg) (hs : t.state = s.state) (hp : t.packet = s.packet) (hw : t.writeIndex = s.writeIndex)
    (hk : t.checksum = s.checksum) (ho : t.outbuf = s.outbuf) :
    feedByte b t =
      .next (r, { t with state := u.state, packet := u.packet, writeIndex := u.writeIndex, checksum := u.checksum,
                         outbuf := u.outbuf }) := by
  have h1 : t.byteAt .packet 1 = s.byteAt .packet 1 := State.byteAt_congr (sp := .packet) hp 1
  rcases feedByte_cases h with ⟨e, rfl, rfl, rfl⟩ | ⟨e, hb, rfl, rfl⟩ | ⟨e, hb, rfl, rfl⟩ | ⟨e, hb, rfl, rfl⟩ |
    ⟨e, hb, rfl, rfl⟩ | ⟨e, hb, hk', rfl, rfl⟩ | ⟨e, hb, rfl, rfl, hl, rfl⟩
  · rw [feedByte_awaitHeader (hs.trans e), ← hc, feedHeader_hdr, hp, hw, hk, ho]
  · rw [feedByte_awaitHeader (hs.trans e)]
    rw [← hc] at hb
    simp only [feedHeader, hb, if_false, ← hc, ← hs, ← hp, ← hw, ← hk, ← ho]
    split_ifs <;> rfl
  · rw [feedByte_awaitLength (hs.trans e), feedLength_spec, hc, if_pos hb, hp, hw, hk, ho]
  · rw [feedByte_awaitLength (hs.trans e), feedLength_spec, hc, if_neg (by omega), hp, ho]
  · rw [feedByte_awaitPayload (hs.trans e), feedPayload_spec _ (by rw [hw, hc]; exact hb), h1, hp, hw, hk, ho]
  · rw [feedByte_awaitChecksum (hs.trans e), feedChecksum_mismatch (by rw [hw, hc]; exact hb) (by rw [hk]; exact hk'),
      hp, hw, hk, ho]
  · rw [feedByte_awaitChecksum (hs.trans e), ← hk,
      feedChecksum_match (by rw [hw, hc]; exact hb) (by rw [h1, hc]; exact hl), h1, hp, hw, hk, ho]

end Sys2Proof.Machine
end

