-- ==== Sys2Proof/Laws/Index.lean ====
section
/-! SUPPORT. Index arithmetic on the ring (`00_scope.md` rule R138, `40_bytequeue.md` rule R76) and the
exclusive-or of a list of bytes (`30_encoding.md` rule R54). -/

namespace Sys2Proof

theorem Config.cap_pos {c : Config} (h : c.legal = true) : 0 < c.cap := by
  simp only [Config.legal, Bool.and_eq_true, decide_eq_true_eq] at h; omega

theorem Config.two_le_cap {c : Config} (h : c.legal = true) : 2 ≤ c.cap := by
  simp only [Config.legal, Bool.and_eq_true, decide_eq_true_eq] at h; omega

theorem Config.maxPay_le {c : Config} (h : c.legal = true) : c.maxPay ≤ 255 := by
  simp only [Config.legal, Bool.and_eq_true, decide_eq_true_eq] at h; omega

theorem Config.cap_even {c : Config} (h : c.legal = true) (hg : c.cdc = .gray) : c.cap % 2 = 0 := by
  simp only [Config.legal, Bool.and_eq_true, hg] at h
  simpa using h.1.1.2

/-- The four start bytes are pairwise different (rule R5). -/
theorem Config.codes_distinct {c : Config} (h : c.legal = true) :
    c.hdr ≠ c.ack ∧ c.hdr ≠ c.nak ∧ c.hdr ≠ c.iam ∧ c.ack ≠ c.nak ∧ c.ack ≠ c.iam ∧ c.nak ≠ c.iam := by
  simp only [Config.legal, Bool.and_eq_true, bne_iff_ne, ne_eq] at h
  tauto

theorem Config.inc_lt {c : Config} (h : 0 < c.cap) (a : Nat) : c.inc a < c.cap := Nat.mod_lt _ h

theorem Config.dist_lt {c : Config} (h : 0 < c.cap) (a b : Nat) : c.dist a b < c.cap := Nat.mod_lt _ h

/-- One step forward from the slot of a count is the slot of the next count. -/
theorem Config.inc_mod (c : Config) (n : Nat) : c.inc (n % c.cap) = (n + 1) % c.cap := by
  simp [Config.inc]

/-- The slots of two counts less than a ring apart are as far apart as the counts. -/
theorem Config.dist_mod {c : Config} {a b : Nat} (hc : 0 < c.cap) (hab : a ≤ b) (hd : b - a < c.cap) :
    c.dist (a % c.cap) (b % c.cap) = b - a := by
  unfold Config.dist
  rw [Nat.mod_mod, Nat.mod_add_mod]
  have hlt := Nat.mod_lt a hc
  have hdm := Nat.div_add_mod a c.cap
  have : b + (c.cap - a % c.cap) = (b - a) + c.cap * (a / c.cap + 1) := by
    rw [Nat.mul_add]; omega
  rw [this, Nat.add_mul_mod_self_left, Nat.mod_eq_of_lt hd]

/-- Going `dist(a, b)` steps forward from `a` arrives at `b`. -/
theorem Config.add_dist {c : Config} {b : Nat} (a : Nat) (hb : b < c.cap) : (a + c.dist a b) % c.cap = b := by
  unfold Config.dist
  rw [Nat.add_mod_mod]
  have hlt := Nat.mod_lt a (show 0 < c.cap by omega)
  have hdm := Nat.div_add_mod a c.cap
  have : a + (b + (c.cap - a % c.cap)) = b + c.cap * (a / c.cap + 1) := by rw [Nat.mul_add]; omega
  rw [this, Nat.add_mul_mod_self_left, Nat.mod_eq_of_lt hb]

@[simp] theorem Config.dist_self {c : Config} (hc : 0 < c.cap) (a : Nat) : c.dist a a = 0 := by
  unfold Config.dist
  have hlt := Nat.mod_lt a hc
  have hdm := Nat.div_add_mod a c.cap
  have : a + (c.cap - a % c.cap) = c.cap * (a / c.cap + 1) := by rw [Nat.mul_add]; omega
  rw [this, Nat.mul_mod_right]

/-- Two counts less than a ring apart with the same slot are equal. -/
theorem eq_of_mod_eq {C a b : Nat} (hab : a ≤ b) (hd : b - a < C) (h : a % C = b % C) : a = b := by
  have hC : 0 < C := by omega
  have h1 : (b - a) % C = 0 := Nat.sub_mod_eq_zero_of_mod_eq h.symm
  rw [Nat.mod_eq_of_lt hd] at h1
  omega

/-- `b >u MAXPAY` (`30_encoding.md` rule R65). -/
@[simp] theorem exceedsMax_iff (c : Config) (b : Byte) : exceedsMax c b = true ↔ c.maxPay < b.toNat := by
  simp [exceedsMax]

@[simp] theorem xorBytes_nil : xorBytes [] = 0 := rfl
@[simp] theorem xorBytes_cons (b : Byte) (l : List Byte) : xorBytes (b :: l) = b ^^^ xorBytes l := rfl

theorem xorBytes_append (l m : List Byte) : xorBytes (l ++ m) = xorBytes l ^^^ xorBytes m := by
  induction l with
  | nil => simp
  | cons b l ih => simp [ih, BitVec.xor_assoc]

@[simp] theorem frame_length (c : Config) (p : List Byte) : (frame c p).length = p.length + 3 := by
  simp [frame]

end Sys2Proof
end

