-- ==== Sys2Proof/Laws/Exec.lean ====
section
/-! SUPPORT. For each meaning, the only ways it can end in a next state; cite these instead of unfolding a meaning. -/

namespace Sys2Proof.Machine

/-- The two ways a PUT can complete (`40_bytequeue.md` rule R70). -/
theorem execPut_cases {b : Byte} {s t : State} (h : execPut b s = .next t) :
    (s.cfg.inc s.head = s.tailSeen ∧ t = { s with ports := .put false }) ∨
    (s.cfg.inc s.head ≠ s.tailSeen ∧ s.head < s.cfg.cap ∧
      t = { s with buf := s.buf.store s.head b, head := s.cfg.inc s.head, ports := .put true }) := by
  unfold execPut State.fullW at h
  by_cases hf : s.cfg.inc s.head = s.tailSeen
  · rw [if_pos (by simpa using hf)] at h
    cases h
    exact .inl ⟨hf, rfl⟩
  · rw [if_neg (by simpa using hf)] at h
    simp only [andThen_eq_next, memWrite_eq_next] at h
    obtain ⟨u, ⟨hl, rfl⟩, h⟩ := h
    cases h
    exact .inr ⟨hf, hl, rfl⟩

/-- A PUT that is not seen full and writes inside the array stores its byte (rule R70). -/
theorem execPut_stores {b : Byte} {s : State} (hf : s.cfg.inc s.head ≠ s.tailSeen) (hl : s.head < s.cfg.cap) :
    execPut b s =
      .next { s with buf := s.buf.store s.head b, head := s.cfg.inc s.head, ports := .put true } := by
  have hw : s.head < s.cfg.size .buf := hl
  simp [execPut, State.fullW, hf, memWrite_inside hw, State.setMem, State.mem, State.report]

/-- A PUT that is seen full changes nothing (rule R70). -/
theorem execPut_full {b : Byte} {s : State} (hf : s.cfg.inc s.head = s.tailSeen) :
    execPut b s = .next { s with ports := .put false } := by
  simp [execPut, State.fullW, hf, takeError, State.report]

/-- The two ways a GET can complete (rule R71). -/
theorem execGet_cases {s t : State} (h : execGet s = .next t) :
    (s.tail = s.headSeen ∧
      t = { s with ports := .get false (Config.any8 s.draws), draws := s.draws + 1 }) ∨
    (s.tail ≠ s.headSeen ∧ s.tail < s.cfg.cap ∧
      t = { s with tail := s.cfg.inc s.tail, ports := .get true (s.byteAt .buf s.tail) }) := by
  simp only [execGet, andThen_eq_next, takeByte_eq_next] at h
  obtain ⟨r, (⟨he, rfl⟩ | ⟨he, hl, rfl⟩), h⟩ := h <;> cases h
  · exact .inl ⟨he, rfl⟩
  · exact .inr ⟨he, hl, rfl⟩

/-- A GET on a queue seen empty (rule R71). -/
theorem execGet_empty {s : State} (he : s.tail = s.headSeen) :
    execGet s = .next { s with ports := .get false (Config.any8 s.draws), draws := s.draws + 1 } := by
  simp [execGet, takeByte_eq_next.2 (.inl ⟨he, rfl⟩), State.report]

/-- A GET on a queue not seen empty (rule R71). -/
theorem execGet_takes {s : State} (he : s.tail ≠ s.headSeen) (hl : s.tail < s.cfg.cap) :
    execGet s = .next { s with tail := s.cfg.inc s.tail, ports := .get true (s.byteAt .buf s.tail) } := by
  simp [execGet, takeByte_eq_next.2 (.inr ⟨he, hl, rfl⟩), State.report]

/-- The two ways a PUMP can complete (`41_packetdecoder.md` rule R87). -/
theorem execPump_cases {s t : State} (h : execPump s = .next t) :
    (s.tail = s.headSeen ∧ t = { s with ports := .pump false .inProgress }) ∨
    (s.tail ≠ s.headSeen ∧ s.tail < s.cfg.cap ∧
      ∃ r u, feedByte (s.byteAt .buf s.tail) { s with tail := s.cfg.inc s.tail } = .next (r, u) ∧
        t = { u with ports := .pump true r }) := by
  simp only [execPump, andThen_eq_next, takeByte_eq_next] at h
  obtain ⟨r, (⟨he, rfl⟩ | ⟨he, hl, rfl⟩), h⟩ := h
  · cases h; exact .inl ⟨he, rfl⟩
  · simp only [andThen_eq_next, Prod.exists] at h
    obtain ⟨r, u, hu, h⟩ := h
    cases h
    exact .inr ⟨he, hl, r, u, hu, rfl⟩

/-- A PUMP on a queue seen empty (rule R87). -/
theorem execPump_empty {s : State} (he : s.tail = s.headSeen) :
    execPump s = .next { s with ports := .pump false .inProgress } := by
  simp [execPump, takeByte_eq_next.2 (.inl ⟨he, rfl⟩), State.report]

/-- A PUMP on a queue not seen empty (rule R87). -/
theorem execPump_takes {s u : State} {r : DecodeResult} (he : s.tail ≠ s.headSeen) (hl : s.tail < s.cfg.cap)
    (hf : feedByte (s.byteAt .buf s.tail) { s with tail := s.cfg.inc s.tail } = .next (r, u)) :
    execPump s = .next { u with ports := .pump true r } := by
  simp [execPump, takeByte_eq_next.2 (.inr ⟨he, hl, rfl⟩), hf, State.report]

/-- The one way a SYNCH can complete (`40_bytequeue.md` rule R73). -/
theorem execSynch_cases {k : Nat} {s t : State} (h : execSynch k s = .next t) :
    k ≤ s.cfg.dist s.headSeen s.head ∧
      t = State.report (s.setHeadRd ((s.headSeen + k) % s.cfg.cap)) .quiet := by
  unfold execSynch at h
  split at h <;> cases h
  exact ⟨‹_›, rfl⟩

/-- The one way a SYNCT can complete (rule R74). -/
theorem execSynct_cases {k : Nat} {s t : State} (h : execSynct k s = .next t) :
    k ≤ s.cfg.dist s.tailSeen s.tail ∧
      t = State.report (s.setTailWr ((s.tailSeen + k) % s.cfg.cap)) .quiet := by
  unfold execSynct at h
  split at h <;> cases h
  exact ⟨‹_›, rfl⟩

/-- The one way a SEND can complete (`42_packetencoder.md` rule R95). -/
theorem execSend_cases {p : List Byte} {s t : State} (h : execSend p s = .next t) :
    p.length ≤ s.cfg.maxPay ∧ t = emit (frame s.cfg p) s := by
  unfold execSend at h
  split at h <;> cases h
  exact ⟨‹_›, rfl⟩

/-- A DAT standing alone completes in no state (`30_encoding.md` rule R60). -/
theorem execDat_stops {b : Byte} {s t : State} : execDat b s ≠ .next t := by simp [execDat]

/-- A FEED that has a result hands it back at the decoder port. -/
theorem feedAndReport_of {b : Byte} {s u : State} {r : DecodeResult} (h : feedByte b s = .next (r, u)) :
    feedAndReport b s = .next { u with ports := .feed r } := by
  simp [feedAndReport, h, State.report]

/-- FEED and every wire row write the decoder's state and the ports alone (rule R26). -/
theorem feedAndReport_frame {b : Byte} {s t : State} (h : feedAndReport b s = .next t) :
    t = { s with state := t.state, packet := t.packet, writeIndex := t.writeIndex, checksum := t.checksum,
                 outbuf := t.outbuf, ports := t.ports } := by
  obtain ⟨r, u, hu, rfl⟩ := feedAndReport_eq_next.1 h
  rw [feedByte_frame hu]
  rfl

end Sys2Proof.Machine
end

