-- ==== Sys2Proof/Laws/PerInstr.lean ====
section
/-! SUPPORT. How many trace items spell each operation (`30_encoding.md` rule R59): one, but for SEND, which takes one
for the size and one for each payload byte. -/

namespace Sys2Proof.Laws.EncodedLength

/-- The number of trace items of `i` is the one of rule R59. -/
def Statement (i : Instr) : Prop :=
  ∀ c : Config,
    (encode c i).length = match i with
      | .send payload => 1 + payload.length
      | _ => 1

theorem put (b : Byte) : Statement (.put b) := fun _ => rfl
theorem get : Statement .get := fun _ => rfl
theorem qinit : Statement .qinit := fun _ => rfl
theorem feed (b : Byte) : Statement (.feed b) := fun _ => rfl
theorem dinit : Statement .dinit := fun _ => rfl
theorem pump : Statement .pump := fun _ => rfl
theorem send (payload : List Byte) : Statement (.send payload) := fun _ => by simp [encode, Nat.add_comm]
theorem sendctlAck : Statement .sendctlAck := fun _ => rfl
theorem sendctlNak : Statement .sendctlNak := fun _ => rfl
theorem sendctlIam : Statement .sendctlIam := fun _ => rfl
theorem dat (b : Byte) : Statement (.dat b) := fun _ => rfl
theorem synch (k : Nat) : Statement (.synch k) := fun _ => rfl
theorem synct (k : Nat) : Statement (.synct k) := fun _ => rfl
theorem syncall : Statement .syncall := fun _ => rfl
theorem packet : Statement .packet := fun _ => rfl
theorem ack : Statement .ack := fun _ => rfl
theorem nak : Statement .nak := fun _ => rfl
theorem iam : Statement .iam := fun _ => rfl
theorem noise (b : Byte) : Statement (.noise b) := fun _ => rfl

end Sys2Proof.Laws.EncodedLength
end

