-- ==== Sys2Proof/Laws/Traces.lean ====
section
/-! SUPPORT. Sequences of operations and of bytes, said once: they join end to end, and a run of payload bytes fed
while a payload is awaited (`41_packetdecoder.md` rule R83) ends with the checksum byte awaited. -/

namespace Sys2Proof.Machine

/-- Two sequences of operations, one after the other. -/
theorem runOps_append {l m : List Instr} {s u v : State} (h1 : runOps l s = .next u) (h2 : runOps m u = .next v) :
    runOps (l ++ m) s = .next v := by
  induction l generalizing s with
  | nil => cases h1; exact h2
  | cons i l ih =>
    simp only [runOps, andThen_eq_next] at h1
    obtain ⟨w, hw, h1⟩ := h1
    simp [runOps, hw, ih h1]

/-- One byte fed before others. -/
theorem feedAll_cons {b : Byte} {l : List Byte} {s u t : State} {r : DecodeResult} {rs : List DecodeResult}
    (h : feedByte b s = .next (r, u)) (ht : feedAll l { u with ports := .feed r } = .next (rs, t)) :
    feedAll (b :: l) s = .next (r :: rs, t) := by
  have hb : exec (.feed b) s = .next { u with ports := .feed r } := feedAndReport_of h
  simp [feedAll, hb, ht, State.result]

/-- Two runs of bytes, one after the other. -/
theorem feedAll_append {l m : List Byte} {s u t : State} {rs qs : List DecodeResult}
    (h1 : feedAll l s = .next (rs, u)) (h2 : feedAll m u = .next (qs, t)) :
    feedAll (l ++ m) s = .next (rs ++ qs, t) := by
  induction l generalizing s rs with
  | nil => cases h1; exact h2
  | cons b l ih =>
    simp only [feedAll, andThen_eq_next] at h1
    obtain ⟨v, hv, ⟨x, y⟩, hx, he⟩ := h1
    cases he
    simp [feedAll, hv, ih hx]

/-- Feeding the payload bytes that are still missing: InProgress each time, the bytes in their slots, their
exclusive-or folded in, and the checksum byte awaited next (rule R83). -/
theorem feedAll_payload {p : List Byte} {s : State} (hp : p ≠ []) (hs : s.state = .awaitPayload)
    (hm : (s.byteAt .packet 1).toNat ≤ s.cfg.maxPay) (h2 : 2 ≤ s.writeIndex)
    (hl : s.writeIndex + p.length = (s.byteAt .packet 1).toNat + 2) :
    ∃ t, feedAll p s = .next (List.replicate p.length .inProgress, t) ∧ t.state = .awaitChecksum ∧
      t.checksum = s.checksum ^^^ xorBytes p ∧ t.writeIndex = s.writeIndex + p.length ∧ t.cfg = s.cfg ∧
      t.outbuf = s.outbuf ∧ (∀ j (h : j < p.length), t.byteAt .packet (s.writeIndex + j) = p[j]) ∧
      (∀ a < s.writeIndex, t.byteAt .packet a = s.byteAt .packet a) := by
  induction p generalizing s with
  | nil => exact absurd rfl hp
  | cons b p ih =>
    simp only [List.length_cons] at hl
    have hw : s.writeIndex < s.cfg.packetMax := by simp [Config.packetMax]; omega
    have hf := feedByte_awaitPayload hs b
    rw [feedPayload_spec b hw] at hf
    by_cases hp : p = []
    · subst hp
      simp at hl
      rw [if_pos (by omega)] at hf
      refine ⟨_, feedAll_cons hf rfl, rfl, by simp, rfl, rfl, rfl, ?_, ?_⟩
      · intro j hj
        simp at hj
        subst hj
        simp [State.byteAt, State.mem]
      · intro a ha
        simp [State.byteAt, State.mem, Memory.find_store_other _ _ (show a ≠ s.writeIndex by omega)]
    · rw [if_neg (by have := List.length_pos_of_ne_nil hp; omega)] at hf
      set u : State :=
        { s with packet := s.packet.store s.writeIndex b, checksum := s.checksum ^^^ b,
                 writeIndex := s.writeIndex + 1, state := .awaitPayload, ports := .feed .inProgress } with hu
      have hb : ∀ a, u.byteAt .packet a = if a = s.writeIndex then b else s.byteAt .packet a := by
        intro a
        simp only [hu, State.byteAt, State.mem, Memory.find_store]
        split <;> rfl
      have h1 : u.byteAt .packet 1 = s.byteAt .packet 1 := by rw [hb, if_neg (by omega)]
      obtain ⟨t, q1, q2, q3, q4, q5, q6, q7, q8⟩ :=
        ih (s := u) hp rfl (by rw [h1]; exact hm) (by simp [hu]; omega) (by rw [h1]; simp [hu]; omega)
      refine ⟨t, feedAll_cons hf q1, q2, ?_, ?_, q5, q6, ?_, ?_⟩
      · rw [q3]; simp [hu, BitVec.xor_assoc]
      · rw [q4]; simp [hu]; omega
      · intro j hj
        cases j with
        | zero => rw [Nat.add_zero, q8 _ (by simp [hu]), hb, if_pos rfl]; rfl
        | succ j =>
          have := q7 j (by simpa using hj)
          simp only [List.getElem_cons_succ, ← this]
          congr 1
          simp [hu]
          omega
      · intro a ha
        rw [q8 a (by simp [hu]; omega), hb, if_neg (by omega)]

end Sys2Proof.Machine
end

