-- ==== Sys2Proof/Tests/Slice0.lean ====
section
/-! SUPPORT. Small tests: words written out from the encoding tables, single steps whose expected values are those of
`95_test_vectors.md` (the vector is named at each), and for every statement a witness that meets its hypotheses. -/

namespace Sys2Proof.Tests

open Sys2Proof.Machine Sys2Proof.Safety

/-! ### Helpers -/

/-- What `f` shows of the state an operation leads to. -/
def view {α : Type} (f : State → α) (o : Run State) : Option α :=
  match o with
  | .next s => some (f s)
  | .fault _ => none
  | .refused _ => none

/-- The refusal an operation ends in. -/
def refusalOf (o : Run State) : Option Refusal :=
  match o with
  | .refused r => some r
  | .next _ => none
  | .fault _ => none

/-- CFG_REF after reset, with these indices (`head tail head_rd tail_wr`) and this queue storage. -/
def q (head tail headRd tailWr : Nat) (buf : Memory) : State :=
  { State.reset with head := head, tail := tail, headRd := headRd, tailWr := tailWr, buf := buf }

/-- CFG_REF after reset, with this decoder. -/
def d (state : DecoderState) (writeIndex : Nat) (checksum : Byte) (packet : Memory) : State :=
  { State.reset with state := state, writeIndex := writeIndex, checksum := checksum, packet := packet }

/-- The same block with another capacity and crossing. -/
def sized (cap : Nat) (cdc : Cdc) (s : State) : State := { s with cfg := { s.cfg with cap := cap, cdc := cdc } }

/-- The four indices. -/
def indices (s : State) : Nat × Nat × Nat × Nat := (s.head, s.tail, s.headRd, s.tailWr)

/-- The decoder's registers. -/
def decoder (s : State) : DecoderState × Nat × Byte := (s.state, s.writeIndex, s.checksum)

/-- The packet of vector VD1 before its checksum byte. -/
def vd1 : State := d .awaitChecksum 4 0xAB [(0, 0xF5), (1, 0x02), (2, 0x81), (3, 0x2A)]

/-- The packet of vector VD1 before its last payload byte. -/
def vd1Last : State := d .awaitPayload 3 0x81 [(0, 0xF5), (1, 0x02), (2, 0x81)]

/-- The packet of vector VD1 before its first payload byte. -/
def vd1First : State := d .awaitPayload 2 0 [(0, 0xF5), (1, 0x02)]

/-- A header has arrived. -/
def afterHeader : State := d .awaitLength 0 0 [(0, 0xF5)]

/-- The queue with the byte 0x41 pending and visible. -/
def one : State := q 1 0 1 0 [(0, 0x41)]

/-- The queue with the byte 0x41 pending and not yet visible (vector VQ3). -/
def unseen : State := q 1 0 0 0 [(0, 0x41)]

/-- A full queue of two slots (vector VQ1 after step 1). -/
def full : State := sized 2 .gray (q 1 0 0 0 [(0, 0xAA)])

/-- A queue seen full although its byte has been taken (vector VQ1 after step 6). -/
def staleFull : State := sized 2 .gray (q 1 1 1 0 [(0, 0xAA)])

/-- An atomic queue of four slots with one byte pending. -/
def atomicOne : State := sized 4 .atomic (q 1 0 0 0 [(0, 0x01)])

/-! ### Well-formedness -/

theorem wf_send_replicate (n : Nat) (b : Byte) :
    (Instr.send (List.replicate n b)).wf Config.ref = decide (n ≤ 255) := by
  rw [Instr.wf, List.length_replicate]
theorem test_wf_send : (Instr.send (List.replicate 255 0)).wf Config.ref = true ∧
    (Instr.send (List.replicate 256 0)).wf Config.ref = false := by
  rw [wf_send_replicate, wf_send_replicate]; decide
theorem test_wf_synch : (Instr.synch 255).wf Config.ref = true ∧ (Instr.synch 256).wf Config.ref = false := by decide
theorem test_wf_synct : (Instr.synct 255).wf Config.ref = true ∧ (Instr.synct 256).wf Config.ref = false := by decide
/-- The four start bytes are no noise (rule R52); VD7's neighbours are. -/
theorem test_wf_noise :
    [0xF5, 0xF6, 0xF7, 0xF8].map (fun b => (Instr.noise b).wf Config.ref) = [false, false, false, false] ∧
    [0x00, 0xFF, 0xF4, 0xF9].map (fun b => (Instr.noise b).wf Config.ref) = [true, true, true, true] := by decide

/-! ### Words, bit by bit: `op` in bits 11..8, `arg` in bits 7..0 (rules R57, R58) -/

theorem test_decode_put : decodeTableWord 16 0b0001_01000001 = some (.put 0x41) := by decide
theorem test_decode_get : decodeTableWord 16 0b0010_00000000 = some .get := by decide
theorem test_decode_qinit : decodeTableWord 16 0b0011_00000000 = some .qinit := by decide
theorem test_decode_feed : decodeTableWord 16 0b0100_11110101 = some (.feed 0xF5) := by decide
theorem test_decode_dinit : decodeTableWord 16 0b0101_00000000 = some .dinit := by decide
theorem test_decode_pump : decodeTableWord 16 0b0110_00000000 = some .pump := by decide
/-- Vector VE1's words. -/
theorem test_decode_send :
    (decode Config.ref .awaitPayload [.cw 0b0111_00000010, .cw 0b1001_10000001, .cw 0b1001_00101010, .rst]).toOption =
      some (.send [0x81, 0x2A], [.rst]) := by decide
theorem test_decode_sendctl_ack : decodeTableWord 16 0b1000_00000000 = some .sendctlAck := by decide
theorem test_decode_sendctl_nak : decodeTableWord 16 0b1000_00000001 = some .sendctlNak := by decide
theorem test_decode_sendctl_iam : decodeTableWord 16 0b1000_00000010 = some .sendctlIam := by decide
theorem test_decode_dat : decodeTableWord 16 0b1001_10000001 = some (.dat 0x81) := by decide
theorem test_decode_synch : decodeTableWord 16 0b1010_00000011 = some (.synch 3) := by decide
theorem test_decode_synct : decodeTableWord 16 0b1011_00000001 = some (.synct 1) := by decide
theorem test_decode_syncall : decodeTableWord 16 0b1100_00000000 = some .syncall := by decide
/-- The wire rows of `opcode_table.json` (their CFG_REF values) and a noise byte of VD7. -/
theorem test_decode_wire : [0xF5, 0xF6, 0xF7, 0xF8, 0xF4].map (decodeTableWord 8) =
    [some .packet, some .ack, some .nak, some .iam, some (.noise 0xF4)] := by decide
/-- Outside AwaitHeader the same bytes are data (rule R62). -/
theorem test_decode_wire_data :
    (decode Config.ref .awaitPayload [.wire 0xF6]).toOption = some (.feed 0xF6, []) := by decide
/-- The reserved words of rule R60: unused `op`s, a nonzero `arg`, SENDCTL 3. -/
theorem test_decode_reserved :
    [0x000, 0xD00, 0xE00, 0xFFF, 0x201, 0x3FF, 0x501, 0x601, 0xC80, 0x803].map (decodeTableWord 16) =
      List.replicate 10 none := by decide
/-- A SEND with too few DAT words (the malformed encodings after VE7). -/
theorem test_decode_short_send :
    (decode Config.ref .awaitHeader [.cw 0x702, .cw 0x981, .cw 0x200]).toOption = none := by decide

/-! ### The step and reset -/

/-- VE1 as a trace from reset. -/
theorem test_step_send :
    view (·.txlog) (step { State.reset with inputs := [.cw 0x702, .cw 0x981, .cw 0x92A] }) =
      some [0xF5, 0x02, 0x81, 0x2A, 0xAB] := by decide
/-- The row's word is what the next step runs. -/
theorem test_withFetchWord : view indices (step (State.reset.withFetchWord 16 0x141)) = some (1, 0, 0, 0) := by decide
/-- Rule R120, from a state in the middle of everything. -/
theorem test_reset_input :
    view (fun s => (indices s, decoder s, s.txlog))
      (step { vd1 with head := 7, tail := 3, headRd := 6, tailWr := 2, txlog := [0xF6], inputs := [.rst] }) =
      some ((0, 0, 0, 0), (.awaitHeader, 0, 0), []) := by decide
theorem test_reset_keeps_storage :
    view (fun s => (s.buf, s.packet)) (step { vd1 with buf := [(0, 1)], inputs := [.rst] }) =
      some ([(0, 1)], vd1.packet) := by decide

/-! ### Queue operations (vector VQ9 unless another is named) -/

theorem test_put_wraps : view (fun s => (indices s, s.buf, s.putOk)) (exec (.put 0x41) (q 19 0 0 3 [])) =
    some ((0, 0, 0, 3), [(19, 0x41)], some true) := by decide
theorem test_put_full : view (fun s => (indices s, s.buf, s.putOk)) (exec (.put 0x41) (q 19 0 0 0 [])) =
    some ((19, 0, 0, 0), [], some false) := by decide
theorem test_get_wraps : view (fun s => (indices s, s.ports)) (exec .get (q 2 19 2 0 [(19, 0x7E)])) =
    some ((2, 0, 2, 0), .get true 0x7E) := by decide
theorem test_get_empty : view (fun s => (indices s, s.getOk)) (exec .get (q 19 19 19 0 [])) =
    some ((19, 19, 19, 0), some false) := by decide
theorem test_qinit : view indices (exec .qinit (q 7 3 6 2 [])) = some (0, 0, 0, 0) := by decide
theorem test_synch_wraps : view indices (exec (.synch 3) (q 1 0 18 0 [])) = some (1, 0, 1, 0) := by decide
/-- VQ6. -/
theorem test_synch_not_enabled : refusalOf (exec (.synch 2) (q 3 2 2 0 [])) = some .syncNotEnabled := by decide
theorem test_synct : view indices (exec (.synct 1) (q 1 1 1 0 [])) = some (1, 1, 1, 1) := by decide
/-- VQ6. -/
theorem test_synct_not_enabled : refusalOf (exec (.synct 1) State.reset) = some .syncNotEnabled := by decide
theorem test_syncall : view indices (exec .syncall (q 9 4 6 1 [])) = some (9, 4, 9, 4) := by decide
/-- VQ2 step 5: with `CDC = atomic` the byte just put is visible. -/
theorem test_get_atomic : view (fun s => (s.tail, s.ports)) (exec .get atomicOne) = some (1, .get true 0x01) := by
  decide

/-! ### Decoder operations -/

/-- VD1, whole. -/
theorem test_feed_packet :
    view (fun s => (decoder s, s.outbuf, s.result)) (exec (.feed 0xAB) vd1) =
      some ((.awaitHeader, 4, 0xAB), [(0, 0xF5), (1, 0x02), (2, 0x81), (3, 0x2A), (4, 0xAB)],
        some .packetReceived) := by decide
/-- VD5 step 2: the length is stored although it is refused. -/
theorem test_feed_size_error :
    view (fun s => (decoder s, s.packet, s.result)) (exec (.feed 0x11) afterHeader) =
      some ((.awaitHeader, 0, 0), [(0, 0xF5), (1, 0x11)], some .sizeError) := by decide
/-- VD15 step 4. -/
theorem test_dinit :
    view (fun s => (decoder s, s.packet)) (exec .dinit (d .awaitPayload 3 0x11 [(0, 0xF5), (1, 0x03), (2, 0x11)])) =
      some ((.awaitHeader, 0, 0), [(0, 0xF5), (1, 0x03), (2, 0x11)]) := by decide
/-- Rule R87's example. -/
theorem test_pump :
    view (fun s => (s.tail, s.state, s.packet, s.ports)) (exec .pump (q 1 0 1 0 [(0, 0xF5)])) =
      some (1, .awaitLength, [(0, 0xF5)], .pump true .inProgress) := by decide
/-- VD19. -/
theorem test_pump_empty :
    view (fun s => (indices s, decoder s, s.ports)) (exec .pump vd1Last) =
      some ((0, 0, 0, 0), (.awaitPayload, 3, 0x81), .pump false .inProgress) := by decide

/-- Log entry 18 (the model's choice): `result_valid` after a FEED, after a PUMP that fed nothing, after a DINIT. -/
theorem test_result_valid : [exec (.feed 0xF5) State.reset, exec .pump State.reset, exec .dinit State.reset].map
    (view (·.resultValid)) = [some true, some false, some false] := by decide

/-! ### Encoder operations -/

/-- VE6: nothing is escaped. -/
theorem test_send : view (·.ports) (exec (.send [0xF5, 0xF6]) State.reset) =
    some (.send [0xF5, 0x02, 0xF5, 0xF6, 0x03]) := by decide
/-- VE5. -/
theorem test_send_too_long :
    refusalOf (exec (.send (List.replicate 17 0)) State.reset) = some .payloadTooLong := by decide
/-- VE4. -/
theorem test_sendctl : [exec .sendctlAck State.reset, exec .sendctlNak State.reset, exec .sendctlIam State.reset].map
    (view (·.txlog)) = [some [0xF6], some [0xF7], some [0xF8]] := by decide
/-- Rule R60. -/
theorem test_dat : refusalOf (exec (.dat 0x81) State.reset) = some .strayDat := by decide

/-! ### Wire rows -/

/-- VD1 step 1. -/
theorem test_packet : view (fun s => (decoder s, s.packet)) (exec .packet State.reset) =
    some ((.awaitLength, 0, 0), [(0, 0xF5)]) := by decide
/-- VD7 steps 1 to 3. -/
theorem test_controls : [exec .ack State.reset, exec .nak State.reset, exec .iam State.reset].map
    (view fun s => (s.state, s.result)) =
      [some (.awaitHeader, some .ackReceived), some (.awaitHeader, some .nakReceived),
       some (.awaitHeader, some .iamReceived)] := by decide
/-- VD7 step 6. -/
theorem test_noise : view (fun s => (decoder s, s.packet, s.result)) (exec (.noise 0xF4) State.reset) =
    some ((.awaitHeader, 0, 0), [], some .inProgress) := by decide

/-! ### The code of an index -/

/-- VG2 and VG3. -/
theorem test_gray :
    (List.range 4).map ({ Config.ref with cap := 4 } : Config).grayEnc = [0b00, 0b01, 0b11, 0b10] ∧
    (List.range 6).map ({ Config.ref with cap := 6 } : Config).grayEnc =
      [0b001, 0b011, 0b010, 0b110, 0b111, 0b101] := by decide
/-- VG4, and the widths of rule R5 under CFG_REF. -/
theorem test_config :
    ({ Config.ref with cap := 5 } : Config).legal = false ∧
    ({ Config.ref with cap := 5, cdc := .atomic } : Config).legal = true ∧
    Config.ref.indexWidth = 5 ∧ Config.ref.writeIndexWidth = 5 ∧ Config.ref.packetMax = 19 := by decide

/-! ### Safe states for the witnesses -/

theorem safe_reset : Inv State.reset :=
  ⟨by decide, by intro sp; cases sp <;> decide, ⟨⟨⟨0, 0, 0, 0⟩, by decide⟩, by decide⟩, by decide, trivial⟩
theorem safe_afterHeader : Inv afterHeader :=
  ⟨by decide, by intro sp; cases sp <;> decide, ⟨⟨⟨0, 0, 0, 0⟩, by decide⟩, by decide⟩, by decide,
    show afterHeader.packet.find 0 = some afterHeader.cfg.hdr by decide⟩
theorem safe_vd1First : Inv vd1First :=
  ⟨by decide, by intro sp; cases sp <;> decide, ⟨⟨⟨0, 0, 0, 0⟩, by decide⟩, by decide⟩, by decide,
    show Assembling vd1First ∧ vd1First.writeIndex < declaredLength (vd1First.byteAt .packet 1) + 2 by decide⟩
theorem safe_vd1Last : Inv vd1Last :=
  ⟨by decide, by intro sp; cases sp <;> decide, ⟨⟨⟨0, 0, 0, 0⟩, by decide⟩, by decide⟩, by decide,
    show Assembling vd1Last ∧ vd1Last.writeIndex < declaredLength (vd1Last.byteAt .packet 1) + 2 by decide⟩
theorem safe_vd1 : Inv vd1 :=
  ⟨by decide, by intro sp; cases sp <;> decide, ⟨⟨⟨0, 0, 0, 0⟩, by decide⟩, by decide⟩, by decide,
    show Assembling vd1 ∧ vd1.writeIndex = declaredLength (vd1.byteAt .packet 1) + 2 by decide⟩
theorem safe_one : Inv one :=
  ⟨by decide, by intro sp; cases sp <;> decide, ⟨⟨⟨1, 0, 1, 0⟩, by decide⟩, by decide⟩, by decide, trivial⟩
theorem queue_full : QueueInv full := ⟨⟨⟨1, 0, 0, 0⟩, by decide⟩, by decide⟩
theorem queue_staleFull : QueueInv staleFull := ⟨⟨⟨1, 1, 1, 0⟩, by decide⟩, by decide⟩
theorem queue_atomicOne : QueueInv atomicOne := ⟨⟨⟨1, 0, 1, 0⟩, by decide⟩, by decide⟩

/-! ### Witnesses: for each statement with hypotheses, one theorem `witness_<statement>` meets them, clause by clause -/

theorem witness_ResetInputIsQinitAndDinitTogether :
    Config.ref.legal = true ∧ ({ vd1 with inputs := [.rst] } : State).inputs = .rst :: [] := by decide
theorem witness_StepRunsTheDecodedOperation : Config.ref.legal = true ∧
    decode Config.ref .awaitHeader [.cw 0x141, .rst] = .ok (.put 0x41, [.rst]) := ⟨by decide, rfl⟩
theorem witness_StepWithoutAnOperation :
    (State.reset.cfg.legal = true ∧ State.reset.inputs = []) ∧ (sized 1 .gray State.reset).cfg.legal = false ∧
    (Input.cw 0x803 ≠ .rst ∧ decode Config.ref .awaitHeader [.cw 0x803] = .error (.reservedArg 0x803)) :=
  ⟨by decide, by decide, by decide, rfl⟩
theorem witness_ReservedWordsAreRefused : Config.ref.legal = true ∧ (0x1 : Byte) ≠ 0 ∧ 3 ≤ (0x3 : Byte).toNat ∧
    ¬ ∃ (payload : List Byte) (left : List Input), payload.length = (0x1 : Byte).toNat ∧
      ([] : List Input) = payload.map (fun b => .cw (commandWord 0x9 b)) ++ left := by
  refine ⟨by decide, by decide, by decide, ?_⟩
  rintro ⟨_ | ⟨b, p⟩, left, hl, he⟩
  · simp at hl
  · simp at he
theorem witness_DecodeOfEncodeIsTheOperation : Config.ref.legal = true ∧
    ((Instr.noise 0xF4).wf Config.ref = true ∧ (Instr.send (List.replicate 255 0x9A)).wf Config.ref = true) ∧
    (∃ w r, encode Config.ref (.synch 255) = .cw w :: r) := ⟨by decide, ⟨by decide, by rw [wf_send_replicate]; decide⟩, _, _, rfl⟩
theorem witness_EncodeOfDecodeIsTheTrace :
    decode Config.ref .awaitHeader [.cw 0x701, .cw 0x9FF, .rst] = .ok (.send [0xFF], [.rst]) ∧
    decode Config.ref .awaitHeader [.wire 0xF4] = .ok (.noise 0xF4, []) := ⟨rfl, rfl⟩
theorem witness_GrayCodeChangesOneBit : Config.ref.legal = true ∧ Config.ref.cdc = .gray ∧ 0 < Config.ref.cap ∧
    19 < Config.ref.cap ∧ Config.ref.cap = 20 ∧
    ({ Config.ref with cap := 4 } : Config).cap = 2 ^ ({ Config.ref with cap := 4 } : Config).indexWidth := by decide
theorem witness_PutStoresAByteOrReportsQueueFull :
    (q 19 0 0 0 []).cfg.inc (q 19 0 0 0 []).head = (q 19 0 0 0 []).tailSeen ∧
    ((q 19 0 0 3 []).cfg.inc (q 19 0 0 3 []).head ≠ (q 19 0 0 3 []).tailSeen ∧
      (q 19 0 0 3 []).head < (q 19 0 0 3 []).cfg.cap) := by decide
theorem witness_GetTakesAByteOrReportsQueueEmpty :
    unseen.tail = unseen.headSeen ∧ (one.tail ≠ one.headSeen ∧ one.tail < one.cfg.cap) := by decide
theorem witness_SynchroniserStepsAdvanceTheCopies :
    (one.cfg.legal = true ∧ one.cfg.cdc = .gray) ∧
    (1 ≤ unseen.cfg.dist unseen.headRd unseen.head ∧ unseen.cfg.dist unseen.headRd unseen.head < 2) ∧
    (1 ≤ staleFull.cfg.dist staleFull.tailWr staleFull.tail ∧ staleFull.cfg.dist staleFull.tailWr staleFull.tail < 2) ∧
    (atomicOne.cfg.legal = true ∧ atomicOne.cfg.cdc = .atomic) := by decide
theorem witness_SyncallCatchesUpCompletely : one.cfg.cdc = .gray ∧ atomicOne.cfg.cdc = .atomic ∧
    one.head < one.cfg.cap ∧ one.tail < one.cfg.cap := by decide
theorem witness_IndexArithmeticStaysBelowC : 19 < Config.ref.cap ∧ 0 < Config.ref.cap := by decide
theorem witness_UsableCapacityIsCMinusOne : full.head < full.cfg.cap ∧ full.tail < full.cfg.cap := by decide
theorem witness_RingHoldsAtEveryStep : one.cfg.legal = true ∧ RingAt ⟨1, 0, 1, 0⟩ one ∧
    (∃ s', exec (.put 0x42) one = .next s' ∧ s'.putOk = some true) ∧
    (∃ s', step { one with inputs := [.rst] } = .next s') := ⟨by decide, by decide, ⟨_, rfl, by decide⟩, _, rfl⟩
theorem witness_DeliveryIsFirstInFirstOut : State.reset.cfg.legal = true ∧ QueueInv State.reset ∧
    (Instr.qinit ∉ [Instr.put 0x41, .syncall, .get]) ∧ pending State.reset = [] ∧
    ∃ t, history [.put 0x41, .syncall, .get] State.reset = some ([0x41], [0x41], t) :=
  ⟨by decide, safe_reset.queue, by decide, by decide, _, rfl⟩
theorem witness_NoOverwriteAndNoUnderflow : one.cfg.legal = true ∧ QueueInv one ∧ 0 < pendingCount one ∧
    (∃ s', exec (.put 0x42) one = .next s' ∧ s'.putOk = some true) ∧
    (∃ s', exec .get one = .next s' ∧ s'.getOk = some true) ∧
    (∃ s', exec .pump one = .next s' ∧ s'.getOk = some true) :=
  ⟨by decide, safe_one.queue, by decide, ⟨_, rfl, by decide⟩, ⟨_, rfl, by decide⟩, ⟨_, rfl, by decide⟩⟩
theorem witness_FullAndEmptyAreNeverOptimistic :
    (full.cfg.legal = true ∧ RingAt ⟨1, 0, 0, 0⟩ full ∧ (1 = 0 + (full.cfg.cap - 1)) ∧
      ∃ s', exec (.put 0xBB) full = .next s' ∧ s'.putOk = some false) ∧
    (State.reset.cfg.legal = true ∧ RingAt ⟨0, 0, 0, 0⟩ State.reset ∧
      ∃ s', exec .get State.reset = .next s' ∧ s'.getOk = some false) :=
  ⟨⟨by decide, by decide, by decide, _, rfl, by decide⟩, by decide, by decide, _, rfl, by decide⟩
theorem witness_AtomicRunsAreGrayRuns : atomicOne.cfg.legal = true ∧ atomicOne.cfg.cdc = .atomic ∧
    QueueInv atomicOne ∧ (∃ s', exec (.put 0x02) atomicOne = .next s' ∧ s'.putOk = some true) ∧
    (∃ s', runOps [.put 0x02, .get, .pump] atomicOne = .next s') :=
  ⟨by decide, by decide, queue_atomicOne, ⟨_, rfl, by decide⟩, _, rfl⟩
theorem witness_PutCommutesWithTheConsumer : one.cfg.legal = true ∧ one.cfg.cdc = .gray ∧ QueueInv one ∧
    agentOf .get = .consumer ∧
    (∃ u u', exec (.put 0x42) one = .next u ∧ exec .get u = .next u') ∧
    (∃ v v', exec .get one = .next v ∧ exec (.put 0x42) v = .next v') :=
  ⟨by decide, by decide, safe_one.queue, rfl, ⟨_, _, rfl, rfl⟩, _, _, rfl, rfl⟩
theorem witness_FillThenDrainReturnsEveryByte : full.cfg.legal = true ∧ [(0x41 : Byte)].length = full.cfg.cap - 1 := by
  decide
theorem witness_RxMakesTheByteVisible : Inv State.reset ∧ State.reset.fullW = false := ⟨safe_reset, by decide⟩
theorem witness_DrainEmptiesTheQueue : Inv one := safe_one
theorem witness_LevelOutputsForetellPutAndGet : one.head < one.cfg.cap ∧ one.tail < one.cfg.cap ∧
    one.emptyR = false := by decide
theorem witness_FeedAwaitingAHeader : State.reset.cfg.legal = true ∧ State.reset.state = .awaitHeader ∧
    (0xF9 : Byte) ≠ Config.ref.hdr ∧ (0xF9 : Byte) ≠ Config.ref.ack ∧ (0xF9 : Byte) ≠ Config.ref.nak ∧
    (0xF9 : Byte) ≠ Config.ref.iam := by decide
theorem witness_FeedAwaitingALength : afterHeader.state = .awaitLength ∧
    afterHeader.cfg.maxPay < (0x11 : Byte).toNat ∧ (0x00 : Byte).toNat ≤ afterHeader.cfg.maxPay ∧
    ((0x10 : Byte).toNat ≤ afterHeader.cfg.maxPay ∧ (0x10 : Byte) ≠ 0) := by decide
theorem witness_FeedAwaitingPayload :
    (vd1First.state = .awaitPayload ∧ vd1Last.state = .awaitPayload) ∧ Inv vd1First ∧ Inv vd1Last ∧
    vd1Last.writeIndex < vd1Last.cfg.packetMax := ⟨by decide, safe_vd1First, safe_vd1Last, by decide⟩
theorem witness_FeedAwaitingAChecksum : vd1.state = .awaitChecksum ∧ Inv vd1 ∧ (0xAA : Byte) ≠ vd1.checksum ∧
    (0xAB : Byte) = vd1.checksum ∧ vd1.writeIndex < vd1.cfg.packetMax ∧
    (vd1.byteAt .packet 1).toNat ≤ vd1.cfg.maxPay := ⟨by decide, safe_vd1, by decide⟩
theorem witness_DecoderTransitionTable :
    Inv State.reset ∧ Inv afterHeader ∧ Inv vd1First ∧ Inv vd1Last ∧ Inv vd1 ∧
    (Config.ref.isStartByte 0xF9 = false ∧ Config.ref.maxPay < (0x11 : Byte).toNat ∧
      1 ≤ (0x10 : Byte).toNat ∧ (0x10 : Byte).toNat ≤ Config.ref.maxPay) ∧
    (vd1First.writeIndex + 1 ≠ (vd1First.byteAt .packet 1).toNat + 2 ∧
      vd1Last.writeIndex + 1 = (vd1Last.byteAt .packet 1).toNat + 2) ∧
    ((0xAB : Byte) = vd1.checksum ∧ (0xAA : Byte) ≠ vd1.checksum) ∧
    ((0x00 : Byte).toNat ≤ Config.ref.maxPay ∧ [(0x00 : Byte)].length = (0x00 : Byte).toNat + 1) :=
  ⟨safe_reset, safe_afterHeader, safe_vd1First, safe_vd1Last, safe_vd1, by decide, by decide, by decide, by decide⟩
theorem witness_PumpIsGetThenFeed : unseen.tail = unseen.headSeen ∧ (Inv one ∧ one.tail ≠ one.headSeen) ∧
    ∃ u v, exec .get one = .next u ∧ u.ports = .get true 0x41 ∧ exec (.feed 0x41) u = .next v ∧
      v.result = some .inProgress := ⟨by decide, ⟨safe_one, by decide⟩, _, _, rfl, by decide, rfl, by decide⟩
theorem witness_ErrorsAreLocalAndPrecise :
    (∃ t, exec (.put 0) full = .next t ∧ t.putOk = some false) ∧
    (∃ t, exec .get State.reset = .next t ∧ t.getOk = some false) ∧
    (∃ t, exec (.feed 0x11) afterHeader = .next t ∧ t.result = some .sizeError) ∧
    (∃ t, exec (.feed 0xAA) vd1 = .next t ∧ t.result = some .checksumError) :=
  ⟨⟨_, rfl, by decide⟩, ⟨_, rfl, by decide⟩, ⟨_, rfl, by decide⟩, _, rfl, by decide⟩
theorem witness_OutputBufferIsStable : ∃ t, exec (.feed 0xAA) { vd1 with outbuf := [(0, 0xF5)] } = .next t ∧
    t.result ≠ some .packetReceived := ⟨_, rfl, by decide⟩
theorem witness_BytesOfTheLineWhileIdle : State.reset.cfg.legal = true ∧ State.reset.state = .awaitHeader ∧
    (Instr.noise 0xF4).wf State.reset.cfg = true := by decide
theorem witness_OutsideIdleEveryByteIsData : vd1Last.state ≠ .awaitHeader ∧ vd1Last.state = .awaitPayload ∧
    ∃ t, exec (.feed 0xF6) vd1Last = .next t := ⟨by decide, by decide, _, rfl⟩
theorem witness_DecoderFindsMessageBoundaries : Config.ref.legal = true ∧ State.reset.state = .awaitHeader ∧
    readMessage Config.ref [0xF5, 0x02, 0x81, 0x2A, 0xAB, 0xF6] = (.packet [0x81, 0x2A], [0xF6]) ∧
    readMessage Config.ref [0xF5, 0x11, 0xF6] = (.oversize 0x11, [0xF6]) ∧
    readMessage Config.ref [0xF5, 0x00, 0x01] = (.corrupt [] 0x01, []) ∧
    readMessage Config.ref [0xF8] = (.control .iamReceived, []) ∧
    readMessage Config.ref [0x41] = (.noise 0x41, []) := by decide
theorem witness_SendThenFeedRoundTrip : Config.ref.legal = true ∧ ([] : List Byte).length ≤ Config.ref.maxPay ∧
    (List.replicate 16 (0xF5 : Byte)).length ≤ Config.ref.maxPay ∧ State.reset.state = .awaitHeader ∧
    ∃ u, exec (.send [0x81, 0x2A]) State.reset = .next u ∧
      u.txlog = State.reset.txlog ++ [0xF5, 0x02, 0x81, 0x2A, 0xAB] :=
  ⟨by decide, by decide, by decide, rfl, _, rfl, by decide⟩
theorem witness_CorruptionYieldsChecksumError : Config.ref.legal = true ∧
    [(0x81 : Byte), 0x2A].length ≤ Config.ref.maxPay ∧ (0xAA : Byte) ≠ xorBytes [0x81, 0x2A] ∧
    (1 < [(0x81 : Byte), 0x2A].length ∧ (0x2B : Byte) ≠ [(0x81 : Byte), 0x2A][1]) := by decide
theorem witness_SendFramesThePayload : (List.replicate 16 (0 : Byte)).length ≤ State.reset.cfg.maxPay ∧
    State.reset.cfg.maxPay < (List.replicate 17 (0 : Byte)).length := by decide
theorem witness_OwnersAloneWriteTheirState :
    [Instr.put 0, .feed 0, .synch 0, .synct 0, .syncall, .qinit].map agentOf =
      [.producer, .consumer, .headSynchroniser, .tailSynchroniser, .bothSynchronisers, .initialiser] ∧
    ∃ t, exec (.put 0) State.reset = .next t := ⟨by decide, _, rfl⟩
theorem witness_StepKeepsTheInvariant : Inv State.reset ∧
    ∃ s', step { State.reset with inputs := [.wire 0xF5] } = .next s' := ⟨safe_reset, _, rfl⟩
theorem witness_SafeStatesNeverFault : Inv one ∧ [(0x81 : Byte)].length ≤ one.cfg.maxPay ∧
    0 ≤ one.cfg.dist one.headSeen one.head ∧ 0 ≤ one.cfg.dist one.tailSeen one.tail := ⟨safe_one, by decide⟩
theorem witness_AccessOutsideAnArrayFaults :
    (20 ≤ (q 20 0 0 0 []).head ∧ (q 20 0 0 0 []).fullW = false) ∧
    (20 ≤ (q 0 20 0 0 []).tail ∧ (q 0 20 0 0 []).emptyR = false) ∧
    Config.ref.packetMax ≤ (d .awaitPayload 19 0 []).writeIndex ∧
    ((0 : Byte) = (d .awaitChecksum 4 0 [(1, 0x11)]).checksum ∧
      Config.ref.maxPay < ((d .awaitChecksum 4 0 [(1, 0x11)]).byteAt .packet 1).toNat) := by decide

end Sys2Proof.Tests
end

section
/-! PROOFS. Who writes what (`00_scope.md` rule R7, `10_state.md` rules R14, R26): the frame of each meaning, and the
obligation that puts them together. -/

namespace Sys2Proof.Machine

/-- The state that each agent owns: between `s` and `t` nothing but that state and the ports was written. -/
def WritesOnlyOwnedBy (a : Agent) (s t : State) : Prop :=
  match a with
  | .producer => t = { s with buf := t.buf, head := t.head, ports := t.ports }
  | .consumer =>
    t = { s with tail := t.tail, state := t.state, packet := t.packet, writeIndex := t.writeIndex,
                 checksum := t.checksum, outbuf := t.outbuf, txlog := t.txlog, ports := t.ports, draws := t.draws }
  | .headSynchroniser => t = { s with headRd := t.headRd, ports := t.ports }
  | .tailSynchroniser => t = { s with tailWr := t.tailWr, ports := t.ports }
  | .bothSynchronisers => t = { s with headRd := t.headRd, tailWr := t.tailWr, ports := t.ports }
  | .initialiser =>
    t = { s with head := t.head, tail := t.tail, headRd := t.headRd, tailWr := t.tailWr, ports := t.ports }

/-! The two copies are written in place (rule R14). -/

theorem State.setHeadRd_frame (s : State) (v : Nat) :
    s.setHeadRd v = { s with headRd := (s.setHeadRd v).headRd } := by
  unfold State.setHeadRd; split <;> rfl

theorem State.setTailWr_frame (s : State) (v : Nat) :
    s.setTailWr v = { s with tailWr := (s.setTailWr v).tailWr } := by
  unfold State.setTailWr; split <;> rfl

/-- Writing both copies writes nothing else. -/
theorem State.setBothCopies_frame (s : State) (v w : Nat) :
    (s.setHeadRd v).setTailWr w =
      { s with headRd := (s.setHeadRd v).headRd, tailWr := ((s.setHeadRd v).setTailWr w).tailWr } := by
  rw [State.setTailWr_frame, State.setHeadRd_frame]

/-! The frame of each meaning. -/

theorem execPut_frame {b : Byte} {s t : State} (h : execPut b s = .next t) : WritesOnlyOwnedBy .producer s t := by
  obtain ⟨-, rfl⟩ | ⟨-, -, rfl⟩ := execPut_cases h <;> rfl

theorem execGet_frame {s t : State} (h : execGet s = .next t) : WritesOnlyOwnedBy .consumer s t := by
  obtain ⟨-, rfl⟩ | ⟨-, -, rfl⟩ := execGet_cases h <;> rfl

/-- PUMP writes `tail` as GET does and then what FEED writes (`41_packetdecoder.md` rule R87). -/
theorem execPump_frame {s t : State} (h : execPump s = .next t) : WritesOnlyOwnedBy .consumer s t := by
  obtain ⟨-, rfl⟩ | ⟨-, -, r, u, hu, rfl⟩ := execPump_cases h
  · rfl
  · rw [feedByte_frame hu]; rfl

/-- FEED and every wire row stay within the consumer's state. -/
theorem feedAndReport_ownedByConsumer {b : Byte} {s t : State} (h : feedAndReport b s = .next t) :
    WritesOnlyOwnedBy .consumer s t := by
  rw [feedAndReport_frame h]; rfl

/-- Handing bytes to the transport stays within the consumer's state. -/
theorem emit_ownedByConsumer (bytes : List Byte) (s : State) : WritesOnlyOwnedBy .consumer s (emit bytes s) := rfl

theorem execSynch_frame {k : Nat} {s t : State} (h : execSynch k s = .next t) :
    WritesOnlyOwnedBy .headSynchroniser s t := by
  obtain ⟨-, rfl⟩ := execSynch_cases h
  rw [State.setHeadRd_frame]; rfl

theorem execSynct_frame {k : Nat} {s t : State} (h : execSynct k s = .next t) :
    WritesOnlyOwnedBy .tailSynchroniser s t := by
  obtain ⟨-, rfl⟩ := execSynct_cases h
  rw [State.setTailWr_frame]; rfl

theorem execSyncall_frame {s t : State} (h : execSyncall s = .next t) : WritesOnlyOwnedBy .bothSynchronisers s t := by
  cases h
  rw [State.setBothCopies_frame]; rfl

theorem execQinit_frame {s t : State} (h : execQinit s = .next t) : WritesOnlyOwnedBy .initialiser s t := by
  cases h
  rw [clearQueue, State.setBothCopies_frame]; rfl

theorem execDinit_frame {s t : State} (h : execDinit s = .next t) : WritesOnlyOwnedBy .consumer s t := by
  cases h; rfl

/-- An operation that completes has written only what its agent owns. -/
theorem exec_writesOnlyOwnedBy {i : Instr} {s t : State} (h : exec i s = .next t) :
    WritesOnlyOwnedBy (agentOf i) s t := by
  cases i with
  | put b => exact execPut_frame h
  | get => exact execGet_frame h
  | qinit => exact execQinit_frame h
  | dinit => exact execDinit_frame h
  | pump => exact execPump_frame h
  | send p =>
    obtain ⟨-, rfl⟩ := execSend_cases h
    exact emit_ownedByConsumer _ s
  | sendctlAck | sendctlNak | sendctlIam => cases h; exact emit_ownedByConsumer _ s
  | dat b => exact absurd h (execDat_stops (b := b) (s := s))
  | synch k => exact execSynch_frame h
  | synct k => exact execSynct_frame h
  | syncall => exact execSyncall_frame h
  | feed b | packet | ack | nak | iam | noise b => exact feedAndReport_ownedByConsumer h

/-- Settles O44: each clause is the frame of the agent it names. -/
theorem ownersAloneWriteTheirState : Obligations.OwnersAloneWriteTheirState := by
  unfold Obligations.OwnersAloneWriteTheirState
  intro i s t h
  have owned : ∀ a, agentOf i = a → WritesOnlyOwnedBy a s t := fun _ ha => ha ▸ exec_writesOnlyOwnedBy h
  exact ⟨owned .producer, owned .consumer, owned .headSynchroniser, owned .tailSynchroniser,
    owned .bothSynchronisers, owned .initialiser⟩

end Sys2Proof.Machine
end

section
/-! PROOFS. One step of the block (`00_scope.md` rules R5, R7, R8, `30_encoding.md` rule R60): what `step` does for
each form of the trace. -/

namespace Sys2Proof.Machine

/-- A configuration that breaks rule R5 is refused by name. -/
theorem step_of_illegal {s : State} (hl : s.cfg.legal = false) : step s = .refused .illegalConfig := by
  simp [step, hl]

/-- With nothing requested the step is idle. -/
theorem step_of_empty {s : State} (hl : s.cfg.legal = true) (hi : s.inputs = []) :
    step s = .next (s.report .quiet) := by
  simp [step, hl, hi]

/-- A front that decodes is run, with what is behind it left in the trace. An empty trace and the reset input do not
decode. -/
theorem step_of_decode_ok {s : State} {i : Instr} {left : List Input} (hl : s.cfg.legal = true)
    (hd : decode s.cfg s.state s.inputs = .ok (i, left)) : step s = exec i { s with inputs := left } := by
  cases hi : s.inputs with
  | nil => simp [hi, decode] at hd
  | cons item rest =>
    rw [hi] at hd
    cases item with
    | rst => simp [decode] at hd
    | cw w => simp [step, hl, hi, hd]
    | wire b => simp [step, hl, hi, hd]

/-- A front other than the reset input that does not decode is refused with the decoder's reason. -/
theorem step_of_decode_error {s : State} {item : Input} {rest : List Input} {e : DecodeError}
    (hl : s.cfg.legal = true) (hi : s.inputs = item :: rest) (hr : item ≠ .rst)
    (hd : decode s.cfg s.state s.inputs = .error e) : step s = .refused (.reserved e) := by
  rw [hi] at hd
  cases item with
  | rst => exact absurd rfl hr
  | cw w => simp [step, hl, hi, hd]
  | wire b => simp [step, hl, hi, hd]

/-- Settles O3: the front of the trace that decodes is neither empty nor the reset input. -/
theorem stepRunsTheDecodedOperation : Obligations.StepRunsTheDecodedOperation := by
  unfold Obligations.StepRunsTheDecodedOperation
  exact fun _ _ _ hl hd => step_of_decode_ok hl hd

/-- Settles O4: the idle step, the illegal configuration and the front that spells no operation, one by one. -/
theorem stepWithoutAnOperation : Obligations.StepWithoutAnOperation := by
  unfold Obligations.StepWithoutAnOperation
  exact fun _ => ⟨step_of_empty, step_of_illegal, fun _ _ _ hl hi hr hd => step_of_decode_error hl hi hr hd⟩

end Sys2Proof.Machine
end

section
/-! PROOFS. What one operation can do to the queue (`10_state.md` rules R10 to R15), said once: it makes one of seven
moves, and each move keeps the ring invariant with the ghost counts moved as rule R15 says, and keeps the pending slots
written. -/

namespace Sys2Proof.Safety

open Sys2Proof.Machine

/-! The ring invariant, part by part. -/

/-- The counts of a block whose copies are the originals with `CDC = atomic` (rule R15). -/
def Counts.levelled (c : Config) (m : Counts) : Counts :=
  if c.cdc = .atomic then { m with hr := m.h, tw := m.t } else m

@[simp] theorem Counts.levelled_h (c : Config) (m : Counts) : (m.levelled c).h = m.h := by
  unfold Counts.levelled; split <;> rfl

@[simp] theorem Counts.levelled_t (c : Config) (m : Counts) : (m.levelled c).t = m.t := by
  unfold Counts.levelled; split <;> rfl

@[simp] theorem Counts.levelled_zero (c : Config) : Counts.levelled c ⟨0, 0, 0, 0⟩ = ⟨0, 0, 0, 0⟩ := by
  unfold Counts.levelled; split <;> rfl

theorem RingAt.order {n : Counts} {s : State} (hn : RingAt n s) :
    n.tw ≤ n.t ∧ n.t ≤ n.hr ∧ n.hr ≤ n.h ∧ n.h ≤ n.tw + (s.cfg.cap - 1) := hn.1

theorem RingAt.head {n : Counts} {s : State} (hn : RingAt n s) : s.head = n.h % s.cfg.cap := hn.2.1.1

theorem RingAt.tail {n : Counts} {s : State} (hn : RingAt n s) : s.tail = n.t % s.cfg.cap := hn.2.1.2

theorem RingAt.headSeen {n : Counts} {s : State} (hn : RingAt n s) : s.headSeen = n.hr % s.cfg.cap := hn.2.2.1.1

theorem RingAt.tailSeen {n : Counts} {s : State} (hn : RingAt n s) : s.tailSeen = n.tw % s.cfg.cap := hn.2.2.1.2

theorem RingAt.atomic {n : Counts} {s : State} (hn : RingAt n s) : s.cfg.cdc = .atomic → n.tw = n.t ∧ n.hr = n.h :=
  hn.2.2.2

/-- With `CDC = gray` the stored copies are the slots of the counts they have caught up with. -/
theorem RingAt.copies {n : Counts} {s : State} (hn : RingAt n s) (hg : s.cfg.cdc = .gray) :
    s.headRd = n.hr % s.cfg.cap ∧ s.tailWr = n.tw % s.cfg.cap :=
  ⟨State.headSeen_gray hg ▸ hn.headSeen, State.tailSeen_gray hg ▸ hn.tailSeen⟩

/-- Levelled counts with the right order and the right slots satisfy the invariant: with `CDC = atomic` what the
copies hold does not matter. -/
theorem ringAt_levelled {c : Config} {m : Counts} {s : State} (cfg : s.cfg = c)
    (order : m.tw ≤ m.t ∧ m.t ≤ m.hr ∧ m.hr ≤ m.h ∧ m.h ≤ m.tw + (c.cap - 1))
    (head : s.head = m.h % c.cap) (tail : s.tail = m.t % c.cap)
    (copies : c.cdc = .gray → s.headRd = m.hr % c.cap ∧ s.tailWr = m.tw % c.cap) :
    RingAt (m.levelled c) s := by
  subst cfg
  cases hc : s.cfg.cdc with
  | gray =>
    have hm : m.levelled s.cfg = m := by simp [Counts.levelled, hc]
    rw [hm]
    refine ⟨order, ⟨head, tail⟩, ?_, by simp [hc]⟩
    rw [State.headSeen_gray hc, State.tailSeen_gray hc]
    exact copies hc
  | atomic =>
    have hm : m.levelled s.cfg = { m with hr := m.h, tw := m.t } := by simp [Counts.levelled, hc]
    rw [hm]
    refine ⟨⟨le_rfl, by simp only; omega, le_rfl, by simp only; omega⟩, ⟨head, tail⟩, ?_, fun _ => ⟨rfl, rfl⟩⟩
    rw [State.headSeen_atomic hc, State.tailSeen_atomic hc]
    exact ⟨head, tail⟩

/-- Counts that satisfy the invariant are level already. -/
theorem RingAt.levelled_eq {n : Counts} {s : State} (hn : RingAt n s) : n.levelled s.cfg = n := by
  unfold Counts.levelled
  split
  · obtain ⟨htw, hhr⟩ := hn.atomic ‹_›
    cases n
    simp_all
  · rfl

/-! Every `dist` that a rule uses is the true difference of two counts (rule R15). -/

theorem RingAt.dist_tail_head {n : Counts} {s : State} (hc : 0 < s.cfg.cap) (hn : RingAt n s) :
    s.cfg.dist s.tail s.head = n.h - n.t := by
  have := hn.order
  rw [hn.tail, hn.head, Config.dist_mod hc (by omega) (by omega)]

theorem RingAt.dist_headSeen_head {n : Counts} {s : State} (hc : 0 < s.cfg.cap) (hn : RingAt n s) :
    s.cfg.dist s.headSeen s.head = n.h - n.hr := by
  have := hn.order
  rw [hn.headSeen, hn.head, Config.dist_mod hc (by omega) (by omega)]

theorem RingAt.dist_tailSeen_tail {n : Counts} {s : State} (hc : 0 < s.cfg.cap) (hn : RingAt n s) :
    s.cfg.dist s.tailSeen s.tail = n.t - n.tw := by
  have := hn.order
  rw [hn.tailSeen, hn.tail, Config.dist_mod hc (by omega) (by omega)]

/-- The write domain sees the queue full exactly when `H - Tw = C - 1`. -/
theorem RingAt.full_iff {n : Counts} {s : State} (hc : 0 < s.cfg.cap) (hn : RingAt n s) :
    s.cfg.inc s.head = s.tailSeen ↔ n.h = n.tw + (s.cfg.cap - 1) := by
  have order := hn.order
  rw [hn.head, hn.tailSeen, Config.inc_mod]
  constructor
  · intro h
    by_contra hne
    have := eq_of_mod_eq (a := n.tw) (b := n.h + 1) (by omega) (by omega) h.symm
    omega
  · intro h
    rw [show n.h + 1 = n.tw + s.cfg.cap by omega, Nat.add_mod_right]

/-- The read domain sees the queue empty exactly when `Hr = T`. -/
theorem RingAt.empty_iff {n : Counts} {s : State} (hc : 0 < s.cfg.cap) (hn : RingAt n s) :
    s.tail = s.headSeen ↔ n.t = n.hr := by
  have order := hn.order
  rw [hn.tail, hn.headSeen]
  exact ⟨eq_of_mod_eq (by omega) (by omega), fun h => by rw [h]⟩

/-! The queue's fields, and the seven moves. -/

/-- The queue's part of the block is the same in both states (rules R10 to R14). -/
structure SameQueue (s t : State) : Prop where
  cfg : t.cfg = s.cfg
  buf : t.buf = s.buf
  head : t.head = s.head
  tail : t.tail = s.tail
  headRd : t.headRd = s.headRd
  tailWr : t.tailWr = s.tailWr

/-- The invariant is about the queue's part alone. -/
theorem RingAt.congr {n : Counts} {s t : State} (same : SameQueue s t) (hn : RingAt n s) : RingAt n t := by
  simp only [RingAt, same.cfg, same.head, same.tail, State.headSeen_congr same.cfg same.head same.headRd,
    State.tailSeen_congr same.cfg same.tail same.tailWr]
  exact hn

/-- The cleared queue is at the start of its counts, whatever it was (rule R72). -/
theorem clearQueue_ring (s : State) : RingAt ⟨0, 0, 0, 0⟩ (clearQueue s) := by
  simp [RingAt]

/-- What an operation can do to the queue on the way from `s` to `t`, with the ghost counts `n` moved as rule R15
says. With `CDC = atomic` the counts of the copies have still to be levelled. -/
inductive QueueMove (s t : State) (n : Counts) : Counts → Prop
  | rest (same : SameQueue s t) : QueueMove s t n n
  | put (b : Byte) (room : s.cfg.inc s.head ≠ s.tailSeen) (inside : s.head < s.cfg.cap)
      (same : SameQueue { s with buf := s.buf.store s.head b, head := s.cfg.inc s.head } t) :
      QueueMove s t n { n with h := n.h + 1 }
  | take (seen : s.tail ≠ s.headSeen) (same : SameQueue { s with tail := s.cfg.inc s.tail } t) :
      QueueMove s t n { n with t := n.t + 1 }
  | clear (same : SameQueue (clearQueue s) t) : QueueMove s t n ⟨0, 0, 0, 0⟩
  | synch (k : Nat) (lag : k ≤ s.cfg.dist s.headSeen s.head)
      (same : SameQueue (s.setHeadRd ((s.headSeen + k) % s.cfg.cap)) t) : QueueMove s t n { n with hr := n.hr + k }
  | synct (k : Nat) (lag : k ≤ s.cfg.dist s.tailSeen s.tail)
      (same : SameQueue (s.setTailWr ((s.tailSeen + k) % s.cfg.cap)) t) : QueueMove s t n { n with tw := n.tw + k }
  | syncall (same : SameQueue ((s.setHeadRd s.head).setTailWr s.tail) t) :
      QueueMove s t n { n with hr := n.h, tw := n.t }

theorem QueueMove.cfg {n m : Counts} {s t : State} (hm : QueueMove s t n m) : t.cfg = s.cfg := by
  cases hm with
  | rest same | put _ _ _ same | take _ same => exact same.cfg
  | clear same | synch _ _ same | synct _ _ same | syncall same => simpa using same.cfg

/-- Every move keeps the ring invariant (rule R15). -/
theorem QueueMove.ring {n m : Counts} {s t : State} (hc : 0 < s.cfg.cap) (hn : RingAt n s)
    (hm : QueueMove s t n m) : RingAt (m.levelled s.cfg) t := by
  have order := hn.order
  have copies := hn.copies
  cases hm with
  | rest same =>
    rw [hn.levelled_eq]
    exact hn.congr same
  | put b room _ same =>
    rw [ne_eq, hn.full_iff hc] at room
    refine RingAt.congr same (ringAt_levelled rfl ?_ ?_ hn.tail copies)
    · simp only; omega
    · simp only [hn.head, Config.inc_mod]
  | take seen same =>
    rw [ne_eq, hn.empty_iff hc] at seen
    refine RingAt.congr same (ringAt_levelled rfl ?_ hn.head ?_ copies)
    · simp only; omega
    · simp only [hn.tail, Config.inc_mod]
  | clear same =>
    rw [Counts.levelled_zero]
    exact (clearQueue_ring s).congr same
  | synch k lag same =>
    rw [hn.dist_headSeen_head hc] at lag
    refine RingAt.congr same (ringAt_levelled (by simp) ?_ (by simpa using hn.head) (by simpa using hn.tail) ?_)
    · simp only; omega
    · intro hg
      simp [hg, (copies hg).2, hn.headSeen]
  | synct k lag same =>
    rw [hn.dist_tailSeen_tail hc] at lag
    refine RingAt.congr same (ringAt_levelled (by simp) ?_ (by simpa using hn.head) (by simpa using hn.tail) ?_)
    · simp only; omega
    · intro hg
      simp [hg, (copies hg).1, hn.tailSeen]
  | syncall same =>
    refine RingAt.congr same (ringAt_levelled (by simp) ?_ (by simpa using hn.head) (by simpa using hn.tail) ?_)
    · simp only; omega
    · intro hg
      simp [hg, hn.head, hn.tail]

/-! Which move each operation makes. -/

/-- FEED and every wire row leave the queue alone (rule R26). -/
theorem sameQueue_of_feedAndReport {b : Byte} {s t : State} (h : feedAndReport b s = .next t) : SameQueue s t := by
  rw [feedAndReport_frame h]
  exact ⟨rfl, rfl, rfl, rfl, rfl, rfl⟩

/-- Every operation that completes makes one of the moves, and rule R15 moves the ghost counts with it. -/
theorem exec_queueMove {i : Instr} {s t : State} (n : Counts) (h : exec i s = .next t) :
    ∃ m, QueueMove s t n m ∧ n.after i s t = m.levelled s.cfg := by
  cases i with
  | put b =>
    obtain ⟨-, rfl⟩ | ⟨room, inside, rfl⟩ := execPut_cases h
    · exact ⟨_, .rest ⟨rfl, rfl, rfl, rfl, rfl, rfl⟩, by simp [Counts.after, Counts.levelled]⟩
    · exact ⟨_, .put b room inside ⟨rfl, rfl, rfl, rfl, rfl, rfl⟩, by simp [Counts.after, Counts.levelled]⟩
  | get =>
    obtain ⟨-, rfl⟩ | ⟨seen, -, rfl⟩ := execGet_cases h
    · exact ⟨_, .rest ⟨rfl, rfl, rfl, rfl, rfl, rfl⟩, by simp [Counts.after, Counts.levelled, State.getOk]⟩
    · exact ⟨_, .take seen ⟨rfl, rfl, rfl, rfl, rfl, rfl⟩, by simp [Counts.after, Counts.levelled, State.getOk]⟩
  | pump =>
    obtain ⟨-, rfl⟩ | ⟨seen, -, r, u, hu, rfl⟩ := execPump_cases h
    · exact ⟨_, .rest ⟨rfl, rfl, rfl, rfl, rfl, rfl⟩, by simp [Counts.after, Counts.levelled, State.getOk]⟩
    · rw [feedByte_frame hu]
      exact ⟨_, .take seen ⟨rfl, rfl, rfl, rfl, rfl, rfl⟩, by simp [Counts.after, Counts.levelled, State.getOk]⟩
  | qinit => cases h; exact ⟨_, .clear ⟨rfl, rfl, rfl, rfl, rfl, rfl⟩, rfl⟩
  | synch k =>
    obtain ⟨lag, rfl⟩ := execSynch_cases h
    exact ⟨_, .synch k lag ⟨rfl, rfl, rfl, rfl, rfl, rfl⟩, rfl⟩
  | synct k =>
    obtain ⟨lag, rfl⟩ := execSynct_cases h
    exact ⟨_, .synct k lag ⟨rfl, rfl, rfl, rfl, rfl, rfl⟩, rfl⟩
  | syncall => cases h; exact ⟨_, .syncall ⟨rfl, rfl, rfl, rfl, rfl, rfl⟩, rfl⟩
  | send p =>
    obtain ⟨-, rfl⟩ := execSend_cases h
    exact ⟨_, .rest ⟨rfl, rfl, rfl, rfl, rfl, rfl⟩, rfl⟩
  | dinit | sendctlAck | sendctlNak | sendctlIam =>
    cases h; exact ⟨_, .rest ⟨rfl, rfl, rfl, rfl, rfl, rfl⟩, rfl⟩
  | dat b => exact absurd h (execDat_stops (b := b) (s := s))
  | feed b | packet | ack | nak | iam | noise b => exact ⟨_, .rest (sameQueue_of_feedAndReport h), rfl⟩

/-- An operation that completes keeps the ring invariant for the moved counts (rule R15). -/
theorem exec_ring {i : Instr} {n : Counts} {s t : State} (hl : s.cfg.legal = true) (hn : RingAt n s)
    (h : exec i s = .next t) : RingAt (n.after i s t) t := by
  obtain ⟨m, hm, hafter⟩ := exec_queueMove n h
  rw [hafter]
  exact hm.ring (Config.cap_pos hl) hn

/-- The reset input clears the queue as QINIT does (rule R120). -/
theorem hardwareReset_sameQueue (s : State) : SameQueue (clearQueue s) (hardwareReset s) :=
  ⟨rfl, rfl, rfl, rfl, rfl, rfl⟩

/-- The reset input at the front of the trace is the step of rule R120. -/
theorem step_of_rst {s : State} {rest : List Input} (hl : s.cfg.legal = true) (hi : s.inputs = .rst :: rest) :
    step s = .next (hardwareReset { s with inputs := rest }) := by
  simp [step, hl, hi]

/-- Settles O18: each operation makes one of seven moves of the queue, each of which keeps the invariant. -/
theorem ringHoldsAtEveryStep : Obligations.RingHoldsAtEveryStep := by
  unfold Obligations.RingHoldsAtEveryStep
  intro n s hl hn
  have hc := Config.cap_pos hl
  refine ⟨fun i t => exec_ring hl hn, fun rest t hi h => ?_, hn.dist_tail_head hc, hn.dist_headSeen_head hc,
    hn.dist_tailSeen_tail hc, ?_⟩
  · rw [step_of_rst hl hi] at h
    cases h
    exact (clearQueue_ring _).congr (hardwareReset_sameQueue _)
  · have := hn.order
    omega

end Sys2Proof.Safety
end

section
/-! PROOFS. The bytes that wait in the queue (`10_state.md` rules R12, R13, `40_bytequeue.md` rule R41), read along the
ghost counts: what each move of the queue does to them, and the queue's part of the invariant. -/

namespace Sys2Proof.Safety

open Sys2Proof.Machine

/-- Within the ring invariant the `j`-th pending slot is the slot of the count `T + j`. -/
theorem RingAt.pendingSlot {n : Counts} {s : State} (hn : RingAt n s) (j : Nat) :
    pendingSlot s j = (n.t + j) % s.cfg.cap := by
  rw [Safety.pendingSlot, hn.tail, Nat.mod_add_mod]

/-- Within the ring invariant the number of pending bytes is `H - T`. -/
theorem RingAt.pendingCount {n : Counts} {s : State} (hc : 0 < s.cfg.cap) (hn : RingAt n s) :
    pendingCount s = n.h - n.t := hn.dist_tail_head hc

/-- The pending slots are the slots of the counts from `T` up to `H`. -/
theorem RingAt.pendingWritten_iff {n : Counts} {s : State} (hc : 0 < s.cfg.cap) (hn : RingAt n s) :
    PendingWritten s ↔ ∀ a, n.t ≤ a → a < n.h → (s.buf.find (a % s.cfg.cap)).isSome = true := by
  simp only [PendingWritten, hn.pendingCount hc, hn.pendingSlot]
  constructor
  · intro h a ha hlt
    simpa [Nat.add_sub_cancel' ha] using h (a - n.t) (by omega)
  · exact fun h j hj => h (n.t + j) (by omega) (by omega)

/-- Every move keeps the pending slots written: a PUT writes the slot it adds, and no other move adds one. -/
theorem QueueMove.pendingWritten {n m : Counts} {s t : State} (hc : 0 < s.cfg.cap) (hn : RingAt n s)
    (hm : QueueMove s t n m) (hw : PendingWritten s) : PendingWritten t := by
  have hcfg := hm.cfg
  rw [hn.pendingWritten_iff hc] at hw
  rw [(hm.ring hc hn).pendingWritten_iff (hcfg ▸ hc), Counts.levelled_t, Counts.levelled_h, hcfg]
  intro a ha hlt
  cases hm with
  | rest same => exact same.buf ▸ hw a ha hlt
  | put b _ _ same =>
    rw [same.buf]
    obtain hlt | rfl := Nat.lt_succ_iff_lt_or_eq.1 hlt
    · exact Memory.find_store_isSome (hw a ha hlt)
    · simp [hn.head]
  | take _ same => exact same.buf ▸ hw a (Nat.le_of_succ_le ha) hlt
  | clear same => exact absurd hlt (Nat.not_lt_zero a)
  | synch _ _ same | synct _ _ same | syncall same => simpa [same.buf] using hw a ha hlt

/-- Every move keeps the queue's part of a safe state. -/
theorem QueueMove.queueInv {n m : Counts} {s t : State} (hc : 0 < s.cfg.cap) (hn : RingAt n s)
    (hm : QueueMove s t n m) (hw : PendingWritten s) : QueueInv t :=
  ⟨⟨_, hm.ring hc hn⟩, hm.pendingWritten hc hn hw⟩

/-- A storage space in canonical form that lists no slot outside its array (`20_memory.md` rules R30, R32). -/
abbrev StoredIn (c : Config) (sp : Space) (m : Memory) : Prop := m.wf = true ∧ m.within (c.size sp) = true

/-- A store inside the array keeps a storage space as it should be. -/
theorem StoredIn.store {c : Config} {sp : Space} {m : Memory} {a : Nat} (v : Byte) (h : StoredIn c sp m)
    (ha : a < c.size sp) : StoredIn c sp (m.store a v) :=
  ⟨Memory.wf_store a v h.1, Memory.within_store ha h.2⟩

/-- Every move keeps the queue storage as it should be. -/
theorem QueueMove.storedIn {n m : Counts} {s t : State} (hm : QueueMove s t n m) (h : StoredIn s.cfg .buf s.buf) :
    StoredIn t.cfg .buf t.buf := by
  rw [hm.cfg]
  cases hm with
  | rest same | take _ same => exact same.buf ▸ h
  | put b _ inside same => exact same.buf ▸ h.store b inside
  | clear same | synch _ _ same | synct _ _ same | syncall same => simpa [same.buf] using h

end Sys2Proof.Safety
end

section
/-! PROOFS. The decoder's part of a safe state (`10_state.md` rules R16 to R21): what one operation can do to the
decoder, said once, and that each of the three moves keeps it. -/

namespace Sys2Proof.Safety

open Sys2Proof.Machine

/-- The decoder's part of the block is the same in both states (rules R16 to R20). -/
structure SameDecoder (s t : State) : Prop where
  cfg : t.cfg = s.cfg
  state : t.state = s.state
  packet : t.packet = s.packet
  writeIndex : t.writeIndex = s.writeIndex
  checksum : t.checksum = s.checksum
  outbuf : t.outbuf = s.outbuf

/-- The decoder's part of a safe state. -/
structure DecoderSafe (s : State) : Prop where
  packet : StoredIn s.cfg .packet s.packet
  outbuf : StoredIn s.cfg .outbuf s.outbuf
  writeIndex : WriteIndexInv s
  decoder : DecoderInv s

/-! `DecoderInv` in each state of the decoder. -/

theorem decoderInv_of_awaitHeader {s : State} (h : s.state = .awaitHeader) : DecoderInv s := by
  simp [DecoderInv, h]

theorem decoderInv_awaitLength_iff {s : State} (h : s.state = .awaitLength) :
    DecoderInv s ↔ s.packet.find 0 = some s.cfg.hdr := by
  simp [DecoderInv, h]

theorem decoderInv_awaitPayload_iff {s : State} (h : s.state = .awaitPayload) :
    DecoderInv s ↔ Assembling s ∧ s.writeIndex < declaredLength (s.byteAt .packet 1) + 2 := by
  simp only [DecoderInv, h]

theorem decoderInv_awaitChecksum_iff {s : State} (h : s.state = .awaitChecksum) :
    DecoderInv s ↔ Assembling s ∧ s.writeIndex = declaredLength (s.byteAt .packet 1) + 2 := by
  simp only [DecoderInv, h]

/-- A state in which a payload or the checksum byte is awaited, the latter exactly when all of the payload is in. -/
theorem decoderInv_of_assembling {s : State} (ha : Assembling s)
    (hw : s.writeIndex ≤ declaredLength (s.byteAt .packet 1) + 2)
    (hs : s.state = if s.writeIndex = declaredLength (s.byteAt .packet 1) + 2 then .awaitChecksum
      else .awaitPayload) : DecoderInv s := by
  split at hs
  · exact (decoderInv_awaitChecksum_iff hs).2 ⟨ha, ‹_›⟩
  · exact (decoderInv_awaitPayload_iff hs).2 ⟨ha, by omega⟩

/-- The decoder's part of a safe state is about the decoder alone. -/
theorem DecoderSafe.congr {s t : State} (same : SameDecoder s t) (h : DecoderSafe s) : DecoderSafe t := by
  obtain ⟨hp, ho, hw, hd⟩ := h
  have hb : ∀ a, t.byteAt .packet a = s.byteAt .packet a := State.byteAt_congr (sp := .packet) same.packet
  refine ⟨?_, ?_, ?_, ?_⟩
  · rw [same.cfg, same.packet]; exact hp
  · rw [same.cfg, same.outbuf]; exact ho
  · rw [WriteIndexInv, same.cfg, same.writeIndex]; exact hw
  · simpa only [DecoderInv, Assembling, assembled, same.cfg, same.state, same.packet, same.writeIndex,
      same.checksum, hb] using hd

/-- DINIT and reset make the decoder idle, with nothing to be kept (rule R86). -/
theorem DecoderSafe.idle {s : State} (h : DecoderSafe s) : DecoderSafe (idleDecoder s) :=
  ⟨h.packet, h.outbuf, Nat.zero_le _, decoderInv_of_awaitHeader rfl⟩

/-! FEED, in each state of the decoder. -/

/-- One more byte assembled is one more byte at the end. -/
theorem assembled_succ (s : State) (n : Nat) : assembled s (n + 1) = assembled s n ++ [s.byteAt .packet (2 + n)] := by
  simp [assembled, List.range_succ]

/-- What is assembled depends on the slots below its end. -/
theorem assembled_congr {s t : State} {n : Nat} (h : ∀ a < 2 + n, t.byteAt .packet a = s.byteAt .packet a) :
    assembled t n = assembled s n := by
  apply List.map_congr_left
  intro j hj
  exact h _ (by rw [List.mem_range] at hj; omega)

/-- After a legal length byte the assembly starts with nothing of the payload in (rule R82). -/
theorem assembling_start {s : State} {b : Byte} (hh : s.packet.find 0 = some s.cfg.hdr) (hb : b.toNat ≤ s.cfg.maxPay)
    (st : DecoderState) :
    Assembling { s with packet := s.packet.store 1 b, checksum := 0, writeIndex := 2, state := st } := by
  refine ⟨?_, ?_, le_rfl, ?_, rfl⟩
  · simpa [Memory.find_store_other] using hh
  · simpa [State.byteAt, State.mem] using hb
  · intro a ha
    obtain rfl | rfl : a = 0 ∨ a = 1 := by simp only at ha; omega
    · simp [Memory.find_store_other, hh]
    · simp

theorem Assembling.two_le_writeIndex {s : State} (h : Assembling s) : 2 ≤ s.writeIndex := h.2.2.1

/-- A payload byte is added to the assembly and folded into the checksum (rule R83). -/
theorem Assembling.payload {s : State} (h : Assembling s) (b : Byte) (st : DecoderState) :
    Assembling { s with packet := s.packet.store s.writeIndex b, checksum := s.checksum ^^^ b,
                        writeIndex := s.writeIndex + 1, state := st } := by
  obtain ⟨hhdr, hlen, htwo, hvalid, hsum⟩ := h
  set t : State := { s with packet := s.packet.store s.writeIndex b, checksum := s.checksum ^^^ b,
                            writeIndex := s.writeIndex + 1, state := st } with ht
  have hfind : ∀ a, t.packet.find a = if a = s.writeIndex then some b else s.packet.find a :=
    fun a => Memory.find_store _ _ _ _
  have hbyte : ∀ a, t.byteAt .packet a = if a = s.writeIndex then b else s.byteAt .packet a :=
    fun a => State.byteAt_store s .packet s.writeIndex a b
  refine ⟨?_, ?_, Nat.le_succ_of_le htwo, ?_, ?_⟩
  · rw [hfind, if_neg (by omega)]; exact hhdr
  · rw [hbyte, if_neg (by omega)]; exact hlen
  · intro a ha
    obtain ha | rfl := Nat.lt_succ_iff_lt_or_eq.1 ha
    · exact Memory.find_store_isSome (hvalid a ha)
    · simp [hfind]
  · have hlow : ∀ a < 2 + (s.writeIndex - 2), t.byteAt .packet a = s.byteAt .packet a := fun a ha => by
      rw [hbyte, if_neg (by omega)]
    calc s.checksum ^^^ b
        = xorBytes (assembled s (s.writeIndex - 2)) ^^^ xorBytes [b] := by rw [hsum]; simp
      _ = xorBytes (assembled t (s.writeIndex - 2) ++ [t.byteAt .packet (2 + (s.writeIndex - 2))]) := by
          rw [xorBytes_append, assembled_congr hlow, hbyte, if_pos (by omega)]
      _ = xorBytes (assembled t (t.writeIndex - 2)) := by
          rw [← assembled_succ, show s.writeIndex - 2 + 1 = t.writeIndex - 2 by simp only [ht]; omega]

/-- A copy inside the arrays keeps the output buffer as it should be (rule R84). -/
theorem StoredIn.copiedTo {c : Config} {packet outbuf : Memory} {n : Nat} (h : StoredIn c .outbuf outbuf)
    (hn : n ≤ c.packetMax) : StoredIn c .outbuf (copiedTo packet outbuf n) :=
  ⟨copiedTo_wf n h.1, copiedTo_within hn h.2⟩

/-- FEED keeps the decoder's part of a safe state, whatever the byte (rules R81 to R84). -/
theorem DecoderSafe.feed {s u : State} {b : Byte} {r : DecodeResult} (h : DecoderSafe s)
    (hf : feedByte b s = .next (r, u)) : DecoderSafe u := by
  obtain ⟨hp, ho, hw, hd⟩ := h
  obtain ⟨hs, rfl, -, rfl⟩ | ⟨hs, -, rfl, -⟩ | ⟨hs, -, -, rfl⟩ | ⟨hs, hb, -, rfl⟩ | ⟨hs, hin, -, rfl⟩ |
    ⟨hs, hin, -, -, rfl⟩ | ⟨hs, hin, -, -, hlen, rfl⟩ := feedByte_cases hf
  · refine ⟨hp.store _ (zero_lt_size_packet _), ho, hw, (decoderInv_awaitLength_iff rfl).2 ?_⟩
    exact Memory.find_store_same _ _ _
  · exact ⟨hp, ho, hw, hd⟩
  · exact ⟨hp.store _ (one_lt_size_packet _), ho, hw, decoderInv_of_awaitHeader rfl⟩
  · rw [decoderInv_awaitLength_iff hs] at hd
    refine ⟨hp.store _ (one_lt_size_packet _), ho, one_lt_size_packet s.cfg, ?_⟩
    refine decoderInv_of_assembling (assembling_start hd hb _) (by simp) ?_
    by_cases h0 : b = 0 <;> simp [h0, State.byteAt, State.mem, ← BitVec.toNat_inj]
  · rw [decoderInv_awaitPayload_iff hs] at hd
    obtain ⟨ha, hlt⟩ := hd
    have hone : ((s.packet.store s.writeIndex b).find 1) = s.packet.find 1 :=
      Memory.find_store_other _ _ (by have := ha.two_le_writeIndex; omega)
    refine ⟨hp.store _ hin, ho, hin, decoderInv_of_assembling (ha.payload b _) ?_ ?_⟩
    · simp only [State.byteAt, State.mem, hone] at hlt ⊢
      omega
    · simp [State.byteAt, State.mem, hone]
  · exact ⟨hp.store _ hin, ho, hw, decoderInv_of_awaitHeader rfl⟩
  · refine ⟨hp.store _ hin, ho.copiedTo ?_, hw, decoderInv_of_awaitHeader rfl⟩
    simpa [Config.packetMax] using hlen

/-! Which move of the decoder each operation makes. -/

/-- What an operation can do to the decoder on the way from `s` to `t`: nothing, a FEED, or DINIT. -/
inductive DecoderMove (s t : State) : Prop
  | rest (same : SameDecoder s t)
  | feed (before after : State) (b : Byte) (r : DecodeResult) (start : SameDecoder s before)
      (fed : feedByte b before = .next (r, after)) (same : SameDecoder after t)
  | idle (same : SameDecoder (idleDecoder s) t)

/-- Every move keeps the decoder's part of a safe state. -/
theorem DecoderMove.keeps {s t : State} (hm : DecoderMove s t) (h : DecoderSafe s) : DecoderSafe t := by
  cases hm with
  | rest same => exact h.congr same
  | feed before after b r start fed same => exact ((h.congr start).feed fed).congr same
  | idle same => exact h.idle.congr same

/-- A FEED and every wire row feed their byte. -/
theorem decoderMove_of_feedAndReport {b : Byte} {s t : State} (h : feedAndReport b s = .next t) : DecoderMove s t := by
  obtain ⟨r, u, hu, rfl⟩ := feedAndReport_eq_next.1 h
  exact .feed s u b r ⟨rfl, rfl, rfl, rfl, rfl, rfl⟩ hu ⟨rfl, rfl, rfl, rfl, rfl, rfl⟩

/-- Every operation that completes makes one of the moves. -/
theorem exec_decoderMove {i : Instr} {s t : State} (h : exec i s = .next t) : DecoderMove s t := by
  cases i with
  | put b =>
    obtain ⟨-, rfl⟩ | ⟨-, -, rfl⟩ := execPut_cases h <;> exact .rest ⟨rfl, rfl, rfl, rfl, rfl, rfl⟩
  | get =>
    obtain ⟨-, rfl⟩ | ⟨-, -, rfl⟩ := execGet_cases h <;> exact .rest ⟨rfl, rfl, rfl, rfl, rfl, rfl⟩
  | pump =>
    obtain ⟨-, rfl⟩ | ⟨-, -, r, u, hu, rfl⟩ := execPump_cases h
    · exact .rest ⟨rfl, rfl, rfl, rfl, rfl, rfl⟩
    · exact .feed { s with tail := s.cfg.inc s.tail } u _ r ⟨rfl, rfl, rfl, rfl, rfl, rfl⟩ hu
        ⟨rfl, rfl, rfl, rfl, rfl, rfl⟩
  | qinit =>
    rw [execQinit_frame h]
    exact .rest ⟨rfl, rfl, rfl, rfl, rfl, rfl⟩
  | synch k =>
    rw [execSynch_frame h]
    exact .rest ⟨rfl, rfl, rfl, rfl, rfl, rfl⟩
  | synct k =>
    rw [execSynct_frame h]
    exact .rest ⟨rfl, rfl, rfl, rfl, rfl, rfl⟩
  | syncall =>
    rw [execSyncall_frame h]
    exact .rest ⟨rfl, rfl, rfl, rfl, rfl, rfl⟩
  | send p =>
    obtain ⟨-, rfl⟩ := execSend_cases h
    exact .rest ⟨rfl, rfl, rfl, rfl, rfl, rfl⟩
  | sendctlAck | sendctlNak | sendctlIam => cases h; exact .rest ⟨rfl, rfl, rfl, rfl, rfl, rfl⟩
  | dinit => cases h; exact .idle ⟨rfl, rfl, rfl, rfl, rfl, rfl⟩
  | dat b => exact absurd h (execDat_stops (b := b) (s := s))
  | feed b | packet | ack | nak | iam | noise b => exact decoderMove_of_feedAndReport h

end Sys2Proof.Safety
end

section
/-! PROOFS. The invariant of the whole block (`10_state.md` rules R15, R18, R19, R21, `20_memory.md` rule R32) holds
at reset and every step keeps it. -/

namespace Sys2Proof.Safety

open Sys2Proof.Machine

/-- A safe state is a legal block with a safe queue and a safe decoder. -/
theorem inv_iff {s : State} :
    Inv s ↔ s.cfg.legal = true ∧ StoredIn s.cfg .buf s.buf ∧ QueueInv s ∧ DecoderSafe s := by
  constructor
  · intro h
    exact ⟨h.legal, h.storage .buf, h.queue, h.storage .packet, h.storage .outbuf, h.writeIndex, h.decoder⟩
  · rintro ⟨hl, hb, hq, hp, ho, hw, hd⟩
    refine ⟨hl, fun sp => ?_, hq, hw, hd⟩
    cases sp with
    | buf => exact hb
    | packet => exact hp
    | outbuf => exact ho

/-- A move of the queue together with a move of the decoder keeps the invariant. -/
theorem Inv.of_moves {s t : State} (h : Inv s) (hq : ∀ n, ∃ m, QueueMove s t n m) (hd : DecoderMove s t) : Inv t := by
  obtain ⟨hl, hb, ⟨⟨n, hn⟩, hw⟩, hds⟩ := inv_iff.1 h
  obtain ⟨m, hm⟩ := hq n
  exact inv_iff.2 ⟨hm.cfg ▸ hl, hm.storedIn hb, hm.queueInv (Config.cap_pos hl) hn hw, hd.keeps hds⟩

/-- What is in the trace and what the ports show do not matter for safety. -/
theorem Inv.of_same {s t : State} (h : Inv s) (hq : SameQueue s t) (hd : SameDecoder s t) : Inv t :=
  h.of_moves (fun n => ⟨n, .rest hq⟩) (.rest hd)

/-- Every operation that completes keeps the invariant. -/
theorem exec_inv {i : Instr} {s t : State} (h : Inv s) (he : exec i s = .next t) : Inv t :=
  h.of_moves (fun n => (exec_queueMove n he).imp fun _ hm => hm.1) (exec_decoderMove he)

/-- The reset input keeps the invariant, in any safe state (rule R120). -/
theorem hardwareReset_inv {s : State} (h : Inv s) : Inv (hardwareReset s) :=
  h.of_moves (fun _ => ⟨_, .clear (hardwareReset_sameQueue s)⟩)
    (.idle ⟨by simp [hardwareReset], by simp [hardwareReset], by simp [hardwareReset], by simp [hardwareReset],
      by simp [hardwareReset], by simp [hardwareReset]⟩)

/-- The only ways a step can lead to a next state: idle, reset, or the operation at the front of the trace. -/
theorem step_cases {s t : State} (h : step s = .next t) :
    (s.inputs = [] ∧ t = s.report .quiet) ∨
    (∃ rest, s.inputs = .rst :: rest ∧ t = hardwareReset { s with inputs := rest }) ∨
    (∃ i left, decode s.cfg s.state s.inputs = .ok (i, left) ∧ exec i { s with inputs := left } = .next t) := by
  cases hl : s.cfg.legal with
  | false => simp [step_of_illegal hl] at h
  | true =>
    cases hi : s.inputs with
    | nil =>
      rw [step_of_empty hl hi] at h
      cases h
      exact .inl ⟨rfl, rfl⟩
    | cons item rest =>
      by_cases hr : item = .rst
      · subst hr
        rw [step_of_rst hl hi] at h
        cases h
        exact .inr (.inl ⟨rest, rfl, rfl⟩)
      · rw [← hi]
        cases hd : decode s.cfg s.state s.inputs with
        | error e => simp [step_of_decode_error hl hi hr hd] at h
        | ok p =>
          obtain ⟨i, left⟩ := p
          rw [step_of_decode_ok hl hd] at h
          exact .inr (.inr ⟨i, left, rfl, h⟩)

/-- Settles O47: the idle step, the reset input and the decoded operation each move queue and decoder safely. -/
theorem stepKeepsTheInvariant : Obligations.StepKeepsTheInvariant := by
  unfold Obligations.StepKeepsTheInvariant
  intro s t hs h
  have hinputs : ∀ rest, Inv { s with inputs := rest } := fun rest =>
    hs.of_same ⟨rfl, rfl, rfl, rfl, rfl, rfl⟩ ⟨rfl, rfl, rfl, rfl, rfl, rfl⟩
  obtain ⟨-, rfl⟩ | ⟨rest, -, rfl⟩ | ⟨i, left, -, he⟩ := step_cases h
  · exact hs.of_same ⟨rfl, rfl, rfl, rfl, rfl, rfl⟩ ⟨rfl, rfl, rfl, rfl, rfl, rfl⟩
  · exact hardwareReset_inv (hinputs rest)
  · exact exec_inv (hinputs left) he

end Sys2Proof.Safety
end

section
/-! PROOFS. Capacity (`10_state.md` rules R13, R23, `40_bytequeue.md` rule R77): how many bytes are pending, what the
level outputs foretell, and the scenario that fills the queue and drains it. -/

namespace Sys2Proof.Safety

open Sys2Proof.Machine

/-! The index arithmetic of rule R138 without the remainder. -/

theorem inc_eq_ite {c : Config} {a : Nat} (ha : a < c.cap) : c.inc a = if a = c.cap - 1 then 0 else a + 1 := by
  unfold Config.inc
  split
  · rw [show a + 1 = c.cap by omega, Nat.mod_self]
  · exact Nat.mod_eq_of_lt (by omega)

theorem dist_eq_ite {c : Config} {a b : Nat} (ha : a < c.cap) (hb : b < c.cap) :
    c.dist a b = if a ≤ b then b - a else b + c.cap - a := by
  unfold Config.dist
  rw [Nat.mod_eq_of_lt ha]
  split
  · rw [show b + (c.cap - a) = b - a + c.cap by omega, Nat.add_mod_right]
    exact Nat.mod_eq_of_lt (by omega)
  · rw [Nat.mod_eq_of_lt (by omega)]
    omega

@[simp] theorem pending_length (s : State) : (pending s).length = pendingCount s := by simp [pending]

/-- Settles O17: the two indices below `C` decide everything, by the two distances they can have. -/
theorem usableCapacityIsCMinusOne : Obligations.UsableCapacityIsCMinusOne := by
  unfold Obligations.UsableCapacityIsCMinusOne
  intro s hh ht
  have hinc := inc_eq_ite hh
  have hdist : pendingCount s = if s.tail ≤ s.head then s.head - s.tail else s.head + s.cfg.cap - s.tail :=
    dist_eq_ite ht hh
  refine ⟨?_, ?_, ?_, pending_length s⟩
  · split at hdist <;> omega
  · split at hinc <;> split at hdist <;> omega
  · split at hdist <;> omega

/-- Settles O25: PUT and GET look at the same comparison as the level output they are foretold by. -/
theorem levelOutputsForetellPutAndGet : Obligations.LevelOutputsForetellPutAndGet := by
  unfold Obligations.LevelOutputsForetellPutAndGet
  intro b s hh ht
  constructor
  · by_cases hf : s.cfg.inc s.head = s.tailSeen
    · exact ⟨_, execPut_full hf, by simp [State.putOk, State.fullW, hf]⟩
    · exact ⟨_, execPut_stores hf hh, by simp [State.putOk, State.fullW, hf]⟩
  · by_cases he : s.tail = s.headSeen
    · exact ⟨_, execGet_empty he, by simp [State.getOk, State.emptyR, he], by simp [State.emptyR, he]⟩
    · exact ⟨_, execGet_takes he ht, by simp [State.getOk, State.emptyR, he], fun _ => rfl⟩

/-! The pending bytes along the ghost counts. -/

/-- The pending bytes depend on the storage and the two indices alone. -/
theorem pending_congr {s t : State} (cfg : t.cfg = s.cfg) (buf : t.buf = s.buf) (head : t.head = s.head)
    (tail : t.tail = s.tail) : pending t = pending s := by
  simp only [pending, pendingCount, pendingSlot, cfg, head, tail, State.byteAt_congr (sp := .buf) buf]

/-- Within the ring invariant the pending bytes are those of the counts from `T` up to `H`. -/
theorem RingAt.pending_eq {n : Counts} {s : State} (hc : 0 < s.cfg.cap) (hn : RingAt n s) :
    pending s = (List.range' n.t (n.h - n.t)).map fun a => s.byteAt .buf (a % s.cfg.cap) := by
  simp only [pending, hn.pendingCount hc, hn.pendingSlot, List.range'_eq_map_range, List.map_map, Function.comp_def]

/-- A stored byte becomes the last one pending (rule R70). -/
theorem RingAt.pending_put {n : Counts} {s t : State} {b : Byte} (hc : 0 < s.cfg.cap) (hn : RingAt n s)
    (room : s.cfg.inc s.head ≠ s.tailSeen) (inside : s.head < s.cfg.cap)
    (same : SameQueue { s with buf := s.buf.store s.head b, head := s.cfg.inc s.head } t) :
    pending t = pending s ++ [b] := by
  have hm : QueueMove s t n { n with h := n.h + 1 } := .put b room inside same
  have order := hn.order
  have hbyte : ∀ a, t.byteAt .buf a = if a = s.head then b else s.byteAt .buf a := fun a => by
    rw [State.byteAt_congr (sp := .buf) same.buf]
    exact State.byteAt_store s .buf s.head a b
  rw [(hm.ring hc hn).pending_eq (hm.cfg ▸ hc), hn.pending_eq hc, hm.cfg, Counts.levelled_t, Counts.levelled_h,
    show n.h + 1 - n.t = n.h - n.t + 1 by omega, List.range'_concat, List.map_append]
  dsimp only
  congr 1
  · refine List.map_congr_left fun a ha => ?_
    obtain ⟨hlo, hhi⟩ := List.mem_range'_1.1 ha
    rw [hbyte, if_neg]
    rw [hn.head]
    exact fun h => absurd (eq_of_mod_eq (by omega) (by omega) h) (by omega)
  · simp [hbyte, hn.head, show n.t + (n.h - n.t) = n.h by omega]

/-- The byte taken is the first one pending (rule R71). -/
theorem RingAt.pending_take {n : Counts} {s t : State} (hc : 0 < s.cfg.cap) (hn : RingAt n s)
    (seen : s.tail ≠ s.headSeen) (same : SameQueue { s with tail := s.cfg.inc s.tail } t) :
    pending s = s.byteAt .buf s.tail :: pending t := by
  have hm : QueueMove s t n { n with t := n.t + 1 } := .take seen same
  have order := hn.order
  rw [ne_eq, hn.empty_iff hc] at seen
  rw [(hm.ring hc hn).pending_eq (hm.cfg ▸ hc), hn.pending_eq hc, hm.cfg, Counts.levelled_t, Counts.levelled_h,
    show n.h - n.t = n.h - (n.t + 1) + 1 by omega, List.range'_succ, List.map_cons, hn.tail]
  simp only [State.byteAt_congr (sp := .buf) same.buf]
  rfl

/-! Filling and draining. -/

/-- One operation before others in a history. -/
theorem history_cons {i : Instr} {ops : List Instr} {s u t : State} {p g : List Byte} (h : exec i s = .next u)
    (hr : history ops u = some (p, g, t)) :
    history (i :: ops) s = some (accepted i u ++ p, delivered i s u ++ g, t) := by
  simp [history, h, hr]

/-- A count of the write domain's copy that is level with `CDC = atomic` stays as it is. -/
theorem Counts.levelled_tw {c : Config} {m : Counts} (h : c.cdc = .atomic → m.tw = m.t) : (m.levelled c).tw = m.tw := by
  unfold Counts.levelled
  split
  · exact (h ‹_›).symm
  · rfl

/-- A count of the read domain's copy that is level with `CDC = atomic` stays as it is. -/
theorem Counts.levelled_hr {c : Config} {m : Counts} (h : c.cdc = .atomic → m.hr = m.h) : (m.levelled c).hr = m.hr := by
  unfold Counts.levelled
  split
  · exact (h ‹_›).symm
  · rfl

/-- A PUT that the write domain sees room for is accepted and its byte pends last (rule R70). -/
theorem put_appends {n : Counts} {s : State} (hc : 0 < s.cfg.cap) (hn : RingAt n s)
    (room : n.h < n.tw + (s.cfg.cap - 1)) (b : Byte) :
    ∃ u m, exec (.put b) s = .next u ∧ u.ports = .put true ∧ u.cfg = s.cfg ∧ RingAt m u ∧ m.h = n.h + 1 ∧
      m.tw = n.tw ∧ pending u = pending s ++ [b] := by
  have hroom : s.cfg.inc s.head ≠ s.tailSeen := by rw [ne_eq, hn.full_iff hc]; omega
  have hin : s.head < s.cfg.cap := hn.head ▸ Nat.mod_lt _ hc
  set u : State := { s with buf := s.buf.store s.head b, head := s.cfg.inc s.head, ports := .put true }
  have same : SameQueue { s with buf := s.buf.store s.head b, head := s.cfg.inc s.head } u :=
    ⟨rfl, rfl, rfl, rfl, rfl, rfl⟩
  exact ⟨u, _, execPut_stores hroom hin, rfl, rfl, (QueueMove.put b hroom hin same).ring hc hn,
    Counts.levelled_h _ _, Counts.levelled_tw fun ha => (hn.atomic ha).1, hn.pending_put hc hroom hin same⟩

/-- A GET that the read domain sees a byte for takes the first pending one (rule R71). -/
theorem get_takes_first {n : Counts} {s : State} (hc : 0 < s.cfg.cap) (hn : RingAt n s) (seen : n.t < n.hr) :
    ∃ u m v, exec .get s = .next u ∧ u.ports = .get true v ∧ u.cfg = s.cfg ∧ RingAt m u ∧ m.h = n.h ∧
      m.t = n.t + 1 ∧ m.hr = n.hr ∧ pending s = v :: pending u := by
  have hseen : s.tail ≠ s.headSeen := by rw [ne_eq, hn.empty_iff hc]; omega
  set u : State := { s with tail := s.cfg.inc s.tail, ports := .get true (s.byteAt .buf s.tail) }
  have same : SameQueue { s with tail := s.cfg.inc s.tail } u := ⟨rfl, rfl, rfl, rfl, rfl, rfl⟩
  exact ⟨u, _, _, execGet_takes hseen (hn.tail ▸ Nat.mod_lt _ hc), rfl, rfl, (QueueMove.take hseen same).ring hc hn,
    Counts.levelled_h _ _, Counts.levelled_t _ _, Counts.levelled_hr fun ha => (hn.atomic ha).2,
    hn.pending_take hc hseen same⟩

/-- As many PUTs as the write domain sees room for are all accepted, add their bytes in order, and leave the queue
seen full. -/
theorem history_puts {bs : List Byte} {n : Counts} {s : State} (hc : 0 < s.cfg.cap) (hn : RingAt n s)
    (room : n.h + bs.length = n.tw + (s.cfg.cap - 1)) :
    ∃ t m, history (bs.map .put) s = some (bs, [], t) ∧ t.cfg = s.cfg ∧ RingAt m t ∧
      t.cfg.inc t.head = t.tailSeen ∧ pending t = pending s ++ bs := by
  induction bs generalizing n s with
  | nil => exact ⟨s, n, rfl, rfl, hn, (hn.full_iff hc).2 room, by simp⟩
  | cons b bs ih =>
    rw [List.length_cons] at room
    obtain ⟨u, k, hput, hok, hucfg, hk, hh, htw, hupend⟩ := put_appends hc hn (by omega) b
    rw [← hucfg] at hc room ⊢
    obtain ⟨t, m, hist, hcfg, hm, hfull, hpend⟩ := ih hc hk (by omega)
    refine ⟨t, m, ?_, hcfg, hm, hfull, by simp [hpend, hupend]⟩
    rw [List.map_cons, history_cons hput hist]
    simp [accepted, delivered, State.putOk, hok]

/-- With the read domain's copy level, as many GETs as bytes are pending hand all of them back in order and leave the
queue seen empty. -/
theorem history_gets {k : Nat} {n : Counts} {s : State} (hc : 0 < s.cfg.cap) (hn : RingAt n s)
    (level : n.hr = n.h) (count : n.h = n.t + k) :
    ∃ u, history (List.replicate k .get) s = some ([], pending s, u) ∧ u.tail = u.headSeen := by
  induction k generalizing n s with
  | zero =>
    have hnone : pending s = [] := List.eq_nil_of_length_eq_zero (by rw [pending_length, hn.pendingCount hc]; omega)
    exact ⟨s, by rw [hnone]; rfl, (hn.empty_iff hc).2 (by omega)⟩
  | succ k ih =>
    obtain ⟨t, m, v, hget, hok, htcfg, hm, hh, ht, hhr, hpend⟩ := get_takes_first hc hn (by omega)
    rw [← htcfg] at hc
    obtain ⟨u, hist, hempty⟩ := ih hc hm (by omega) (by omega)
    refine ⟨u, ?_, hempty⟩
    rw [List.replicate_succ, history_cons hget hist, hpend]
    simp [accepted, delivered, State.getOk, State.getData, hok]

/-- QINIT leads to the start of the counts with nothing pending, from any state (rule R72). -/
theorem qinit_empties {s : State} (hc : 0 < s.cfg.cap) :
    ∃ q, exec .qinit s = .next q ∧ q.cfg = s.cfg ∧ RingAt ⟨0, 0, 0, 0⟩ q ∧ pending q = [] := by
  have hring : RingAt ⟨0, 0, 0, 0⟩ ((clearQueue s).report .quiet) :=
    (clearQueue_ring s).congr ⟨rfl, rfl, rfl, rfl, rfl, rfl⟩
  refine ⟨_, rfl, clearQueue_cfg s, hring, List.eq_nil_of_length_eq_zero ?_⟩
  exact (pending_length _).trans (hring.pendingCount (by simpa using hc))

/-- SYNCALL brings the read domain's copy level and leaves the pending bytes as they are (rule R75). -/
theorem syncall_levels {n : Counts} {s : State} (hc : 0 < s.cfg.cap) (hn : RingAt n s) :
    ∃ w m, exec .syncall s = .next w ∧ w.cfg = s.cfg ∧ RingAt m w ∧ m.hr = m.h ∧ pending w = pending s := by
  set w : State := ((s.setHeadRd s.head).setTailWr s.tail).report .quiet with hw
  have same : SameQueue ((s.setHeadRd s.head).setTailWr s.tail) w := ⟨rfl, rfl, rfl, rfl, rfl, rfl⟩
  have hlevel : (Counts.levelled s.cfg { n with hr := n.h, tw := n.t }).hr = n.h := Counts.levelled_hr fun _ => rfl
  exact ⟨w, _, rfl, by simp [hw], (QueueMove.syncall same).ring hc hn, by rw [hlevel, Counts.levelled_h],
    pending_congr (by simp [hw]) (by simp [hw]) (by simp [hw]) (by simp [hw])⟩

/-- Settles O24: PUTs fill the emptied queue up to `C - 1`, SYNCALL levels the copies, and GETs take all of it out. -/
theorem fillThenDrainReturnsEveryByte : Obligations.FillThenDrainReturnsEveryByte := by
  unfold Obligations.FillThenDrainReturnsEveryByte
  intro s bs x hl hbs
  have hc := Config.cap_pos hl
  obtain ⟨q, hqinit, hqcfg, hq, hqnone⟩ := qinit_empties hc
  rw [← hqcfg] at hc hbs ⊢
  obtain ⟨t, n, hputs, htcfg, hn, hfull, hpend⟩ := history_puts (bs := bs) hc hq (by rw [hbs])
  rw [hqnone, List.nil_append] at hpend
  rw [← htcfg] at hc hbs ⊢
  obtain ⟨w, m, hsync, hwcfg, hm, hlevel, hwpend⟩ := syncall_levels hc hn
  rw [hpend] at hwpend
  rw [← hwcfg] at hc hbs ⊢
  have hcount : m.h - m.t = w.cfg.cap - 1 := by rw [← hm.pendingCount hc, ← pending_length, hwpend, hbs]
  obtain ⟨u, hgets, hempty⟩ := history_gets (k := w.cfg.cap - 1) hc hm hlevel (by have := hm.order; omega)
  refine ⟨q, t, u, _, hqinit, hputs, execPut_full hfull, ?_, execGet_empty hempty, rfl, rfl⟩
  rw [history_cons hsync hgets, hwpend]
  rfl

end Sys2Proof.Safety
end

section
/-! PROOFS. The state after reset (`10_state.md` rule R27). -/

namespace Sys2Proof.Safety

open Sys2Proof.Machine

/-- After reset the ring invariant holds with nothing counted. -/
theorem reset_ring : RingAt ⟨0, 0, 0, 0⟩ State.reset := by decide

/-- After reset nothing is pending. -/
theorem reset_pendingWritten : PendingWritten State.reset := fun j hj => absurd hj (Nat.not_lt_zero j)

/-- After reset every slot of an array holds its power-up byte. -/
theorem reset_byteAt (sp : Space) (a : Nat) : State.reset.byteAt sp a = Config.powerUp sp a := by
  cases sp <;> rfl

/-- Settles O1: the fields one by one, the arrays by their spaces. -/
theorem resetLeavesTheStatedValues : Obligations.ResetLeavesTheStatedValues := by
  unfold Obligations.ResetLeavesTheStatedValues
  exact ⟨rfl, rfl, rfl, rfl, rfl, rfl, rfl, rfl, reset_byteAt, reset_ring⟩

/-- Settles O46: the queue is empty and the decoder idle, so little is to be kept. -/
theorem resetIsSafe : Obligations.ResetIsSafe :=
  { legal := by decide
    storage := State.reset_storage
    queue := ⟨⟨_, reset_ring⟩, reset_pendingWritten⟩
    writeIndex := Nat.zero_le _
    decoder := decoderInv_of_awaitHeader rfl }

end Sys2Proof.Safety
end

section
/-! PROOFS. First in, first out (`20_memory.md` rule R40): what one operation does to the pending bytes, and along a
run. -/

namespace Sys2Proof.Safety

open Sys2Proof.Machine

/-- An operation that leaves the queue alone leaves the pending bytes alone. -/
theorem SameQueue.pending_eq {s t : State} (same : SameQueue s t) : pending t = pending s :=
  pending_congr same.cfg same.buf same.head same.tail

/-- FEED and every wire row neither add a pending byte nor take one. -/
theorem feedAndReport_pending {b : Byte} {s t : State} (h : feedAndReport b s = .next t) : pending s = pending t :=
  (sameQueue_of_feedAndReport h).pending_eq.symm

/-- One operation other than QINIT: what was pending and then accepted is what was delivered and then pending. -/
theorem exec_delivers_in_order {i : Instr} {n : Counts} {s t : State} (hc : 0 < s.cfg.cap) (hn : RingAt n s)
    (hi : i ≠ .qinit) (h : exec i s = .next t) :
    pending s ++ accepted i t = delivered i s t ++ pending t := by
  cases i with
  | put b =>
    obtain ⟨-, rfl⟩ | ⟨room, inside, rfl⟩ := execPut_cases h
    · exact List.append_nil _
    · exact (hn.pending_put hc room inside ⟨rfl, rfl, rfl, rfl, rfl, rfl⟩).symm
  | get =>
    obtain ⟨-, rfl⟩ | ⟨seen, -, rfl⟩ := execGet_cases h
    · exact List.append_nil _
    · exact (List.append_nil _).trans (hn.pending_take hc seen ⟨rfl, rfl, rfl, rfl, rfl, rfl⟩)
  | pump =>
    obtain ⟨-, rfl⟩ | ⟨seen, -, r, u, hu, rfl⟩ := execPump_cases h
    · exact List.append_nil _
    · rw [feedByte_frame hu]
      exact (List.append_nil _).trans (hn.pending_take hc seen ⟨rfl, rfl, rfl, rfl, rfl, rfl⟩)
  | qinit => exact absurd rfl hi
  | synch k =>
    rw [execSynch_frame h]
    exact List.append_nil _
  | synct k =>
    rw [execSynct_frame h]
    exact List.append_nil _
  | syncall =>
    rw [execSyncall_frame h]
    exact List.append_nil _
  | send p =>
    obtain ⟨-, rfl⟩ := execSend_cases h
    exact List.append_nil _
  | dinit | sendctlAck | sendctlNak | sendctlIam => cases h; exact List.append_nil _
  | dat b => exact absurd h (execDat_stops (b := b) (s := s))
  | feed b | packet | ack | nak | iam | noise b => exact (List.append_nil _).trans (feedAndReport_pending h)

/-- No operation writes the build-time parameters (`10_state.md` rule R24). -/
theorem exec_cfg {i : Instr} {s t : State} (h : exec i s = .next t) : t.cfg = s.cfg := by
  obtain ⟨m, hm, -⟩ := exec_queueMove ⟨0, 0, 0, 0⟩ h
  exact hm.cfg

/-- A history that completes starts with an operation that completes. -/
theorem history_cons_eq_some {i : Instr} {ops : List Instr} {s t : State} {p g : List Byte}
    (h : history (i :: ops) s = some (p, g, t)) :
    ∃ u q f, exec i s = .next u ∧ history ops u = some (q, f, t) ∧ p = accepted i u ++ q ∧
      g = delivered i s u ++ f := by
  unfold history at h
  split at h
  case h_1 u hu =>
    split at h
    case h_1 q f v hv =>
      cases h
      exact ⟨u, q, f, hu, hv, rfl, rfl⟩
    case h_2 => cases h
  all_goals cases h

/-- Along a run without QINIT, what was pending and then accepted is what was delivered and then pending. -/
theorem history_delivers_in_order {ops : List Instr} {n : Counts} {s t : State} {p g : List Byte}
    (hl : s.cfg.legal = true) (hn : RingAt n s) (hq : .qinit ∉ ops) (h : history ops s = some (p, g, t)) :
    pending s ++ p = g ++ pending t := by
  induction ops generalizing n s p g with
  | nil =>
    cases h
    exact List.append_nil _
  | cons i ops ih =>
    obtain ⟨u, q, f, hu, hrest, rfl, rfl⟩ := history_cons_eq_some h
    rw [List.mem_cons, not_or] at hq
    have first := exec_delivers_in_order (Config.cap_pos hl) hn (Ne.symm hq.1) hu
    have rest := ih (exec_cfg hu ▸ hl) (exec_ring hl hn hu) hq.2 hrest
    calc pending s ++ (accepted i u ++ q)
        = delivered i s u ++ (pending u ++ q) := by rw [← List.append_assoc, first, List.append_assoc]
      _ = delivered i s u ++ f ++ pending t := by rw [rest, List.append_assoc]

/-- Settles O19: each operation keeps the order, so every run does. -/
theorem deliveryIsFirstInFirstOut : Obligations.DeliveryIsFirstInFirstOut := by
  unfold Obligations.DeliveryIsFirstInFirstOut
  intro ops s t p g hl hs hq h
  obtain ⟨⟨n, hn⟩, -⟩ := hs
  have order := history_delivers_in_order hl hn hq h
  refine ⟨order, fun hnone => ⟨pending t, ?_⟩⟩
  rw [← order, hnone, List.nil_append]

end Sys2Proof.Safety
end

section
/-! PROOFS. The two sides of the queue against each other (`20_memory.md` rules R41, R45): no slot is written while its
byte is pending, none is read before it is written, and a report of full or empty is never optimistic. -/

namespace Sys2Proof.Safety

open Sys2Proof.Machine

/-- The next write slot is not the slot of a pending byte, since at most `C - 1` bytes are pending. -/
theorem RingAt.pendingSlot_ne_head {n : Counts} {s : State} {j : Nat} (hc : 0 < s.cfg.cap) (hn : RingAt n s)
    (hj : j < Safety.pendingCount s) : Safety.pendingSlot s j ≠ s.head := by
  have order := hn.order
  rw [hn.pendingCount hc] at hj
  rw [hn.pendingSlot, hn.head]
  exact fun h => absurd (eq_of_mod_eq (by omega) (by omega) h) (by omega)

/-- A queue not seen empty has a byte pending, and the next read slot holds it. -/
theorem QueueInv.written_at_tail {s : State} (hc : 0 < s.cfg.cap) (hq : QueueInv s) (seen : s.tail ≠ s.headSeen) :
    0 < pendingCount s ∧ ∃ v, s.buf.find s.tail = some v := by
  obtain ⟨⟨n, hn⟩, hw⟩ := hq
  have order := hn.order
  rw [ne_eq, hn.empty_iff hc] at seen
  have hpos : 0 < pendingCount s := by rw [hn.pendingCount hc]; omega
  have hslot : pendingSlot s 0 = s.tail := by rw [hn.pendingSlot, hn.tail, Nat.add_zero]
  exact ⟨hpos, Option.isSome_iff_exists.1 (hslot ▸ hw 0 hpos)⟩

/-- Settles O20: the write slot is no pending slot, and a byte is taken from a pending slot only. -/
theorem noOverwriteAndNoUnderflow : Obligations.NoOverwriteAndNoUnderflow := by
  unfold Obligations.NoOverwriteAndNoUnderflow
  intro s t hl hq
  have hc := Config.cap_pos hl
  refine ⟨fun b h ok j hj => ?_, fun h ok => ?_, fun h ok => ?_⟩
  · obtain ⟨⟨n, hn⟩, -⟩ := hq
    have hslot := hn.pendingSlot_ne_head hc hj
    obtain ⟨-, rfl⟩ | ⟨-, -, rfl⟩ := execPut_cases h
    · simp [State.putOk] at ok
    · exact ⟨hslot, (State.byteAt_store s .buf s.head _ b).trans (if_neg hslot)⟩
  · obtain ⟨-, rfl⟩ | ⟨seen, -, rfl⟩ := execGet_cases h
    · simp [State.getOk] at ok
    · obtain ⟨hpos, v, hv⟩ := QueueInv.written_at_tail hc hq seen
      exact ⟨hpos, v, hv, congrArg some (State.byteAt_of_find (sp := .buf) hv)⟩
  · obtain ⟨-, rfl⟩ | ⟨seen, -, r, u, -, rfl⟩ := execPump_cases h
    · simp [State.getOk] at ok
    · exact QueueInv.written_at_tail hc hq seen

/-- A PUT fails exactly when the write domain sees the queue full (`40_bytequeue.md` rule R70). -/
theorem put_fails_iff {b : Byte} {s t : State} (h : exec (.put b) s = .next t) :
    t.putOk = some false ↔ s.cfg.inc s.head = s.tailSeen := by
  obtain ⟨full, rfl⟩ | ⟨room, -, rfl⟩ := execPut_cases h
  · simp [State.putOk, full]
  · simp [State.putOk, room]

/-- A GET fails exactly when the read domain sees the queue empty (rule R71). -/
theorem get_fails_iff {s t : State} (h : exec .get s = .next t) :
    t.getOk = some false ↔ s.tail = s.headSeen := by
  obtain ⟨empty, rfl⟩ | ⟨seen, -, rfl⟩ := execGet_cases h
  · simp [State.getOk, empty]
  · simp [State.getOk, seen]

/-- CFG_REF after 19 bytes put and seen and one of them taken, before the write domain sees the slot it freed. -/
def takenUnseen : State := { State.reset with head := 19, tail := 1, headRd := 19 }

/-- CFG_REF after one byte put, before the read domain sees it. -/
def putUnseen : State := { State.reset with head := 1 }

/-- Settles O21: the two sides compare with counts that lag behind the true ones, never ahead of them. -/
theorem fullAndEmptyAreNeverOptimistic : Obligations.FullAndEmptyAreNeverOptimistic := by
  unfold Obligations.FullAndEmptyAreNeverOptimistic
  refine ⟨fun n s t hl hn => ?_, ?_, ?_⟩
  · have hc := Config.cap_pos hl
    have order := hn.order
    refine ⟨fun b h => ?_, fun h => ?_⟩
    · rw [put_fails_iff h, hn.full_iff hc]
      omega
    · rw [get_fails_iff h, hn.empty_iff hc]
      omega
  · exact ⟨⟨19, 1, 19, 0⟩, takenUnseen, _, by decide, rfl, by decide, by decide, execPut_full rfl, rfl⟩
  · exact ⟨⟨1, 0, 0, 0⟩, putUnseen, _, by decide, rfl, by decide, by decide, execGet_empty rfl, rfl⟩

end Sys2Proof.Safety
end

section
/-! PROOFS. Accesses to the arrays (`20_memory.md` rule R32): a safe state makes none outside, so every operation with
a meaning completes; an access outside, which no run reaches, stops with its fault. -/

namespace Sys2Proof.Safety

open Sys2Proof.Machine

/-- FEED while idle of a byte that is not the header (`41_packetdecoder.md` rule R81). -/
theorem feedHeader_other {b : Byte} {s : State} (hb : b ≠ s.cfg.hdr) :
    feedHeader b s =
      .next (if b = s.cfg.ack then .ackReceived else if b = s.cfg.nak then .nakReceived
             else if b = s.cfg.iam then .iamReceived else .inProgress, s) := by
  rw [feedHeader, if_neg hb]
  split_ifs <;> rfl

/-- From a safe decoder FEED completes, whatever the byte: the assembly has room for it, and a packet whose checksum
matches fits the output buffer (`41_packetdecoder.md` rules R81 to R84). -/
theorem DecoderSafe.feed_completes {s : State} (h : DecoderSafe s) (b : Byte) :
    ∃ r u, feedByte b s = .next (r, u) := by
  have hd := h.decoder
  cases hs : s.state with
  | awaitHeader =>
    rw [feedByte_awaitHeader hs]
    by_cases hb : b = s.cfg.hdr
    · rw [hb, feedHeader_hdr]
      exact ⟨_, _, rfl⟩
    · exact ⟨_, _, feedHeader_other hb⟩
  | awaitLength =>
    rw [feedByte_awaitLength hs, feedLength_spec]
    split_ifs <;> exact ⟨_, _, rfl⟩
  | awaitPayload =>
    obtain ⟨⟨-, hlen, -⟩, hw⟩ := (decoderInv_awaitPayload_iff hs).1 hd
    rw [feedByte_awaitPayload hs, feedPayload_spec b (by unfold Config.packetMax; omega)]
    exact ⟨_, _, rfl⟩
  | awaitChecksum =>
    obtain ⟨⟨-, hlen, -⟩, hw⟩ := (decoderInv_awaitChecksum_iff hs).1 hd
    have hin : s.writeIndex < s.cfg.packetMax := by unfold Config.packetMax; omega
    rw [feedByte_awaitChecksum hs]
    by_cases hb : b = s.checksum
    · rw [hb, feedChecksum_match hin hlen]
      exact ⟨_, _, rfl⟩
    · rw [feedChecksum_mismatch hin hb]
      exact ⟨_, _, rfl⟩

/-- From a safe decoder FEED and every wire row complete. -/
theorem DecoderSafe.feedAndReport_completes {s : State} (h : DecoderSafe s) (b : Byte) :
    ∃ t, feedAndReport b s = .next t := by
  obtain ⟨r, u, hu⟩ := h.feed_completes b
  exact ⟨_, feedAndReport_of hu⟩

/-- A PUT completes when the next write slot is inside the array. -/
theorem execPut_completes {s : State} (hh : s.head < s.cfg.cap) (b : Byte) : ∃ t, execPut b s = .next t := by
  by_cases full : s.cfg.inc s.head = s.tailSeen
  · exact ⟨_, execPut_full full⟩
  · exact ⟨_, execPut_stores full hh⟩

/-- A GET completes when the next read slot is inside the array. -/
theorem execGet_completes {s : State} (ht : s.tail < s.cfg.cap) : ∃ t, execGet s = .next t := by
  by_cases empty : s.tail = s.headSeen
  · exact ⟨_, execGet_empty empty⟩
  · exact ⟨_, execGet_takes empty ht⟩

/-- A PUMP completes when the next read slot is inside the array and the decoder is safe. -/
theorem execPump_completes {s : State} (ht : s.tail < s.cfg.cap) (hd : DecoderSafe s) :
    ∃ t, execPump s = .next t := by
  by_cases empty : s.tail = s.headSeen
  · exact ⟨_, execPump_empty empty⟩
  · have taken : DecoderSafe { s with tail := s.cfg.inc s.tail } :=
      DecoderSafe.congr (s := s) ⟨rfl, rfl, rfl, rfl, rfl, rfl⟩ hd
    obtain ⟨r, u, hu⟩ := taken.feed_completes (s.byteAt .buf s.tail)
    exact ⟨_, execPump_takes empty ht hu⟩

/-- Settles O48: the indices are inside the queue storage and the decoder is safe, and no other operation accesses an
array. -/
theorem safeStatesNeverFault : Obligations.SafeStatesNeverFault := by
  unfold Obligations.SafeStatesNeverFault
  intro i s hs hdat hsend hsynch hsynct
  obtain ⟨hl, -, ⟨⟨n, hn⟩, -⟩, hd⟩ := inv_iff.1 hs
  have hc := Config.cap_pos hl
  have hh : s.head < s.cfg.cap := hn.head ▸ Nat.mod_lt _ hc
  have ht : s.tail < s.cfg.cap := hn.tail ▸ Nat.mod_lt _ hc
  cases i with
  | put b => exact execPut_completes hh b
  | get => exact execGet_completes ht
  | pump => exact execPump_completes ht hd
  | feed b | packet | ack | nak | iam | noise b => exact hd.feedAndReport_completes _
  | send p => exact ⟨_, if_pos (hsend p rfl)⟩
  | synch k => exact ⟨_, if_pos (hsynch k rfl)⟩
  | synct k => exact ⟨_, if_pos (hsynct k rfl)⟩
  | dat b => exact absurd rfl (hdat b)
  | qinit | dinit | sendctlAck | sendctlNak | sendctlIam | syncall => exact ⟨_, rfl⟩

/-- A copy of more bytes than the arrays have stops at the first index outside them (`41_packetdecoder.md` rule
R84). -/
theorem copyOut_outside {n : Nat} {s : State} (h : s.cfg.packetMax < n) :
    copyOut n s = .fault (.outsideArray .packet s.cfg.packetMax) := by
  induction n with
  | zero => omega
  | succ n ih =>
    obtain hlt | rfl := Nat.lt_succ_iff_lt_or_eq.1 h
    · rw [copyOut, ih hlt, andThen_fault]
    · rw [copyOut, copyOut_eq le_rfl, andThen_next, memRead_outside, andThen_fault]
      exact Nat.lt_irrefl _

/-- A payload byte with `writeIndex` outside the packet buffer stops there. -/
theorem feedPayload_outside {s : State} (h : s.cfg.packetMax ≤ s.writeIndex) (b : Byte) :
    feedPayload b s = .fault (.outsideArray .packet s.writeIndex) := by
  rw [feedPayload, memRead_inside (one_lt_size_packet _), andThen_next, memWrite_outside h.not_gt, andThen_fault]

/-- A checksum byte with `writeIndex` outside the packet buffer stops there. -/
theorem feedChecksum_outside {s : State} (h : s.cfg.packetMax ≤ s.writeIndex) (b : Byte) :
    feedChecksum b s = .fault (.outsideArray .packet s.writeIndex) := by
  rw [feedChecksum, memRead_inside (one_lt_size_packet _), andThen_next, memWrite_outside h.not_gt, andThen_fault]

/-- A matching checksum byte after a length above `MAXPAY` stops in the copy, at the end of the packet buffer. -/
theorem feedChecksum_copies_outside {s : State} (h : s.writeIndex < s.cfg.packetMax)
    (hl : s.cfg.maxPay < (s.byteAt .packet 1).toNat) :
    feedChecksum s.checksum s = .fault (.outsideArray .packet s.cfg.packetMax) := by
  have hw : s.writeIndex < s.cfg.size .packet := h
  have hn : (s.setMem .packet ((s.mem .packet).store s.writeIndex s.checksum)).cfg.packetMax <
      declaredLength (s.byteAt .packet 1) + 3 := by
    rw [State.setMem_cfg, declaredLength, Config.packetMax]
    omega
  rw [feedChecksum, memRead_inside (one_lt_size_packet _), andThen_next, memWrite_inside hw, andThen_next, if_pos rfl,
    copyOut_outside hn, andThen_fault, State.setMem_cfg]

/-- A FEED that stops with a fault stops the operation with it. -/
theorem execFeed_fault {b : Byte} {s : State} {f : Fault} (h : feedByte b s = .fault f) :
    exec (.feed b) s = .fault f := by
  show feedAndReport b s = .fault f
  rw [feedAndReport, h, andThen_fault]

/-- Settles O49: each access is the first outside its array and stops the operation. -/
theorem accessOutsideAnArrayFaults : Obligations.AccessOutsideAnArrayFaults := by
  unfold Obligations.AccessOutsideAnArrayFaults
  intro b s
  refine ⟨fun hh room => ?_, fun ht seen => ?_, ?_, fun hs hb hw hl => ?_⟩
  · show execPut b s = _
    rw [execPut, room, if_neg Bool.false_ne_true, memWrite_outside hh.not_gt, andThen_fault]
  · show execGet s = _
    rw [execGet, takeByte, seen, if_neg Bool.false_ne_true, memRead_outside ht.not_gt, andThen_fault, andThen_fault]
  · rintro (hs | hs) hw
    · exact execFeed_fault ((feedByte_awaitPayload hs b).trans (feedPayload_outside hw b))
    · exact execFeed_fault ((feedByte_awaitChecksum hs b).trans (feedChecksum_outside hw b))
  · subst hb
    exact execFeed_fault ((feedByte_awaitChecksum hs _).trans (feedChecksum_copies_outside hw hl))

end Sys2Proof.Safety
end

section
/-! PROOFS. Every run of the `atomic` block is a run of the `gray` block with a SYNCALL after each PUT and each GET
(`20_memory.md` rule R46): operation by operation, then as a whole. -/

namespace Sys2Proof.Safety

open Sys2Proof.Machine

/-- The same block built with `CDC = gray`, with the copies `hr` and `tw`. `asGray` is the one whose copies have caught
up. -/
def grayWith (hr tw : Nat) (s : State) : State :=
  { s with cfg := { s.cfg with cdc := .gray }, headRd := hr, tailWr := tw }

theorem asGray_eq_grayWith (s : State) : asGray s = grayWith s.head s.tail s := rfl

/-- A FEED looks at neither the crossing nor the copies (`10_state.md` rule R26). -/
theorem feedByte_grayWith {b : Byte} {s u : State} {r : DecodeResult} (hr tw : Nat)
    (h : feedByte b s = .next (r, u)) : feedByte b (grayWith hr tw s) = .next (r, grayWith hr tw u) := by
  have state : (grayWith hr tw s).state = s.state := rfl
  obtain ⟨hs, rfl, rfl, rfl⟩ | ⟨hs, hb, hu, rfl⟩ | ⟨hs, hb, rfl, rfl⟩ | ⟨hs, hb, rfl, rfl⟩ | ⟨hs, hw, rfl, rfl⟩ |
    ⟨hs, hw, hb, rfl, rfl⟩ | ⟨hs, hw, rfl, rfl, hl, rfl⟩ := feedByte_cases h
  all_goals rw [hs] at state
  · exact (feedByte_awaitHeader state _).trans (feedHeader_hdr (grayWith hr tw s))
  · exact hu ▸ (feedByte_awaitHeader state _).trans (feedHeader_other (s := grayWith hr tw s) hb)
  · exact (feedByte_awaitLength state _).trans ((feedLength_spec b (grayWith hr tw s)).trans (if_pos hb))
  · exact (feedByte_awaitLength state _).trans ((feedLength_spec b (grayWith hr tw s)).trans (if_neg hb.not_gt))
  · exact (feedByte_awaitPayload state _).trans (feedPayload_spec (s := grayWith hr tw s) b hw)
  · exact (feedByte_awaitChecksum state _).trans (feedChecksum_mismatch (s := grayWith hr tw s) hw hb)
  · exact (feedByte_awaitChecksum state _).trans (feedChecksum_match (s := grayWith hr tw s) hw hl)

/-- FEED and every wire row do in the gray block what they do in the atomic one. -/
theorem feedAndReport_asGray {b : Byte} {s t : State} (h : feedAndReport b s = .next t) :
    feedAndReport b (asGray s) = .next (asGray t) := by
  obtain ⟨r, u, hu, rfl⟩ := feedAndReport_eq_next.1 h
  have head : u.head = s.head := by rw [feedByte_frame hu]
  have tail : u.tail = s.tail := by rw [feedByte_frame hu]
  rw [asGray_eq_grayWith, asGray_eq_grayWith, State.report_head, State.report_tail, head, tail]
  exact feedAndReport_of (feedByte_grayWith s.head s.tail hu)

/-! With `CDC = atomic` there are no copies to write (`10_state.md` rule R14). -/

theorem setHeadRd_atomic {s : State} (ha : s.cfg.cdc = .atomic) (v : Nat) : s.setHeadRd v = s := by
  simp [State.setHeadRd, ha]

theorem setTailWr_atomic {s : State} (ha : s.cfg.cdc = .atomic) (v : Nat) : s.setTailWr v = s := by
  simp [State.setTailWr, ha]

theorem clearQueue_atomic {s : State} (ha : s.cfg.cdc = .atomic) : clearQueue s = { s with head := 0, tail := 0 } := by
  simp [clearQueue, setHeadRd_atomic, setTailWr_atomic, ha]

/-- The only SYNCH of an atomic block that completes is the one by 0, and it writes nothing (`40_bytequeue.md` rules
R73, R75). -/
theorem execSynch_atomic {k : Nat} {s t : State} (hc : 0 < s.cfg.cap) (ha : s.cfg.cdc = .atomic)
    (h : execSynch k s = .next t) : k = 0 ∧ t = s.report .quiet := by
  obtain ⟨lag, rfl⟩ := execSynch_cases h
  rw [State.headSeen_atomic ha, Config.dist_self hc] at lag
  exact ⟨Nat.le_zero.1 lag, by rw [setHeadRd_atomic ha]⟩

/-- The only SYNCT of an atomic block that completes is the one by 0, and it writes nothing (rules R74, R75). -/
theorem execSynct_atomic {k : Nat} {s t : State} (hc : 0 < s.cfg.cap) (ha : s.cfg.cdc = .atomic)
    (h : execSynct k s = .next t) : k = 0 ∧ t = s.report .quiet := by
  obtain ⟨lag, rfl⟩ := execSynct_cases h
  rw [State.tailSeen_atomic ha, Config.dist_self hc] at lag
  exact ⟨Nat.le_zero.1 lag, by rw [setTailWr_atomic ha]⟩

/-- In a gray block with level copies a SYNCH by 0 changes nothing. -/
theorem execSynch_zero_asGray {s : State} (hh : s.head < s.cfg.cap) :
    execSynch 0 (asGray s) = .next ((asGray s).report .quiet) := by
  have hset : (asGray s).setHeadRd (((asGray s).headSeen + 0) % (asGray s).cfg.cap) = asGray s := by
    show { asGray s with headRd := (s.head + 0) % s.cfg.cap } = asGray s
    rw [Nat.add_zero, Nat.mod_eq_of_lt hh]
    rfl
  rw [execSynch, if_pos (Nat.zero_le _), hset]

/-- In a gray block with level copies a SYNCT by 0 changes nothing. -/
theorem execSynct_zero_asGray {s : State} (ht : s.tail < s.cfg.cap) :
    execSynct 0 (asGray s) = .next ((asGray s).report .quiet) := by
  have hset : (asGray s).setTailWr (((asGray s).tailSeen + 0) % (asGray s).cfg.cap) = asGray s := by
    show { asGray s with tailWr := (s.tail + 0) % s.cfg.cap } = asGray s
    rw [Nat.add_zero, Nat.mod_eq_of_lt ht]
    rfl
  rw [execSynct, if_pos (Nat.zero_le _), hset]

/-- SYNCALL makes a gray block level, whatever its copies were (`40_bytequeue.md` rule R75). -/
theorem syncall_grayWith (hr tw : Nat) (s : State) :
    runOps [.syncall] (grayWith hr tw s) = .next ((asGray s).report .quiet) := rfl

/-- What an operation of the atomic block from `s` to `t` is in the gray block: the operation, with the same status,
and after the SYNCALL that may follow it the two blocks agree again. -/
abbrev RunsInGray (i : Instr) (s t : State) : Prop :=
  ∃ w v, exec i (asGray s) = .next w ∧ w.ports = t.ports ∧ runOps ((withSyncall i).drop 1) w = .next v ∧
    SameButPorts v (asGray t)

/-- An operation that no SYNCALL follows keeps the blocks in agreement by itself. -/
theorem RunsInGray.alone {i : Instr} {s t : State} (hi : withSyncall i = [i])
    (h : exec i (asGray s) = .next (asGray t)) : RunsInGray i s t :=
  ⟨asGray t, asGray t, h, rfl, by rw [hi]; rfl, rfl⟩

/-- An operation that a SYNCALL follows may leave the copies of the gray block where they were. -/
theorem RunsInGray.synced {i : Instr} {s t : State} (hi : withSyncall i = [i, .syncall])
    (h : exec i (asGray s) = .next (grayWith s.head s.tail t)) : RunsInGray i s t :=
  ⟨grayWith s.head s.tail t, _, h, rfl, by rw [hi]; exact syncall_grayWith s.head s.tail t, rfl⟩

/-- Rule R46, one operation. -/
theorem exec_runsInGray {i : Instr} {n : Counts} {s t : State} (hc : 0 < s.cfg.cap) (ha : s.cfg.cdc = .atomic)
    (hn : RingAt n s) (h : exec i s = .next t) : RunsInGray i s t := by
  have hhead := State.headSeen_atomic ha
  have htail := State.tailSeen_atomic ha
  cases i with
  | put b =>
    obtain ⟨full, rfl⟩ | ⟨room, inside, rfl⟩ := execPut_cases h
    · rw [htail] at full
      exact .synced rfl (execPut_full (s := asGray s) full)
    · rw [htail] at room
      exact .synced rfl (execPut_stores (s := asGray s) room inside)
  | get =>
    obtain ⟨empty, rfl⟩ | ⟨seen, inside, rfl⟩ := execGet_cases h
    · rw [hhead] at empty
      exact .synced rfl (execGet_empty (s := asGray s) empty)
    · rw [hhead] at seen
      exact .synced rfl (execGet_takes (s := asGray s) seen inside)
  | pump =>
    obtain ⟨empty, rfl⟩ | ⟨seen, inside, r, u, hu, rfl⟩ := execPump_cases h
    · rw [hhead] at empty
      exact .synced rfl (execPump_empty (s := asGray s) empty)
    · rw [hhead] at seen
      exact .synced rfl (execPump_takes (s := asGray s) seen inside (feedByte_grayWith s.head s.tail hu))
  | synch k =>
    obtain ⟨rfl, rfl⟩ := execSynch_atomic hc ha h
    exact .alone rfl (execSynch_zero_asGray (hn.head ▸ Nat.mod_lt _ hc))
  | synct k =>
    obtain ⟨rfl, rfl⟩ := execSynct_atomic hc ha h
    exact .alone rfl (execSynct_zero_asGray (hn.tail ▸ Nat.mod_lt _ hc))
  | syncall =>
    cases h
    rw [setHeadRd_atomic ha, setTailWr_atomic ha]
    exact .alone rfl rfl
  | qinit =>
    cases h
    rw [clearQueue_atomic ha]
    exact .alone rfl rfl
  | send p =>
    obtain ⟨hp, rfl⟩ := execSend_cases h
    exact .alone rfl (if_pos hp)
  | dinit | sendctlAck | sendctlNak | sendctlIam => cases h; exact .alone rfl rfl
  | dat b => exact absurd h (execDat_stops (b := b) (s := s))
  | feed b | packet | ack | nak | iam | noise b => exact .alone rfl (feedAndReport_asGray h)

/-! Writing a copy and showing something on the ports do not interfere. -/

theorem setHeadRd_report (s : State) (p : Ports) (v : Nat) : (s.report p).setHeadRd v = (s.setHeadRd v).report p := by
  unfold State.setHeadRd
  rw [State.report_cfg]
  split <;> rfl

theorem setTailWr_report (s : State) (p : Ports) (v : Nat) : (s.report p).setTailWr v = (s.setTailWr v).report p := by
  unfold State.setTailWr
  rw [State.report_cfg]
  split <;> rfl

theorem clearQueue_report (s : State) (p : Ports) : clearQueue (s.report p) = (clearQueue s).report p := by
  rw [clearQueue, clearQueue, ← setTailWr_report, ← setHeadRd_report]
  rfl

/-- FEED and every wire row overwrite what the ports showed. -/
theorem feedAndReport_report {b : Byte} {s t : State} (p : Ports) (h : feedAndReport b s = .next t) :
    feedAndReport b (s.report p) = .next t := by
  obtain ⟨r, u, hu, rfl⟩ := feedAndReport_eq_next.1 h
  rw [feedAndReport_of (feedByte_congr (t := s.report p) hu rfl rfl rfl rfl rfl rfl), feedByte_frame hu]
  rfl

/-- What the ports showed before an operation does not matter: it overwrites them (`10_state.md` rule R23). -/
theorem exec_report {i : Instr} {s t : State} (p : Ports) (h : exec i s = .next t) :
    exec i (s.report p) = .next t := by
  cases i with
  | put b =>
    obtain ⟨full, rfl⟩ | ⟨room, inside, rfl⟩ := execPut_cases h
    · exact execPut_full (s := s.report p) full
    · exact execPut_stores (s := s.report p) room inside
  | get =>
    obtain ⟨empty, rfl⟩ | ⟨seen, inside, rfl⟩ := execGet_cases h
    · exact execGet_empty (s := s.report p) empty
    · exact execGet_takes (s := s.report p) seen inside
  | pump =>
    obtain ⟨empty, rfl⟩ | ⟨seen, inside, r, u, hu, rfl⟩ := execPump_cases h
    · exact execPump_empty (s := s.report p) empty
    · have hu' := feedByte_congr (t := { s.report p with tail := s.cfg.inc s.tail }) hu rfl rfl rfl rfl rfl rfl
      rw [feedByte_frame hu]
      exact (execPump_takes (s := s.report p) seen inside hu').trans rfl
  | synch k =>
    obtain ⟨lag, rfl⟩ := execSynch_cases h
    refine (if_pos lag).trans ?_
    rw [setHeadRd_report]
    rfl
  | synct k =>
    obtain ⟨lag, rfl⟩ := execSynct_cases h
    refine (if_pos lag).trans ?_
    rw [setTailWr_report]
    rfl
  | send bytes =>
    obtain ⟨hp, rfl⟩ := execSend_cases h
    exact if_pos hp
  | qinit =>
    cases h
    show execQinit (s.report p) = _
    rw [execQinit, clearQueue_report]
    rfl
  | syncall =>
    cases h
    show execSyncall (s.report p) = _
    rw [execSyncall, setHeadRd_report, setTailWr_report]
    rfl
  | dinit | sendctlAck | sendctlNak | sendctlIam => cases h; rfl
  | dat b => exact absurd h (execDat_stops (b := b) (s := s))
  | feed b | packet | ack | nak | iam | noise b => exact feedAndReport_report p h

/-! Rule R46, a whole run. -/

theorem sameButPorts_trans {s t u : State} (hst : SameButPorts s t) (htu : SameButPorts t u) : SameButPorts s u :=
  (congrArg (State.report · s.ports) htu).trans hst

/-- A run from two states that differ in the ports alone completes alike. -/
theorem runOps_sameButPorts {ops : List Instr} {s t s' : State} (same : SameButPorts s' s)
    (h : runOps ops s = .next t) : ∃ t', runOps ops s' = .next t' ∧ SameButPorts t' t := by
  cases ops with
  | nil =>
    cases h
    exact ⟨s', rfl, same⟩
  | cons i ops =>
    obtain ⟨u, hu, hrest⟩ := andThen_eq_next.1 h
    have hu' : exec i s' = .next u := by
      rw [← same]
      exact exec_report s'.ports hu
    exact ⟨t, andThen_eq_next.2 ⟨u, hu', hrest⟩, rfl⟩

/-- The operation itself stands in front of what follows it in the gray block. -/
theorem withSyncall_eq_cons (i : Instr) : withSyncall i = i :: (withSyncall i).drop 1 := by
  cases i <;> rfl

/-- A run of the atomic block is a run of the gray block, up to what the ports show last. -/
theorem runOps_asGray {ops : List Instr} {n : Counts} {s t : State} (hl : s.cfg.legal = true)
    (ha : s.cfg.cdc = .atomic) (hn : RingAt n s) (h : runOps ops s = .next t) :
    ∃ v, runOps (ops.flatMap withSyncall) (asGray s) = .next v ∧ SameButPorts v (asGray t) := by
  induction ops generalizing n s with
  | nil =>
    cases h
    exact ⟨_, rfl, rfl⟩
  | cons i ops ih =>
    obtain ⟨u, hu, hrest⟩ := andThen_eq_next.1 h
    have hcfg := exec_cfg hu
    obtain ⟨w, x, hw, -, hx, same⟩ := exec_runsInGray (Config.cap_pos hl) ha hn hu
    have first : runOps (withSyncall i) (asGray s) = .next x := by
      rw [withSyncall_eq_cons]
      exact andThen_eq_next.2 ⟨w, hw, hx⟩
    obtain ⟨y, hy, hyt⟩ := ih (hcfg ▸ hl) (hcfg ▸ ha) (exec_ring hl hn hu) hrest
    obtain ⟨v, hv, hvy⟩ := runOps_sameButPorts same hy
    exact ⟨v, runOps_append first hv, sameButPorts_trans hvy hyt⟩

/-- In the atomic block the read domain sees at once the byte that a PUT stored (rule R36). -/
theorem get_after_put_atomic {b : Byte} {n : Counts} {s u v : State} (hl : s.cfg.legal = true)
    (ha : s.cfg.cdc = .atomic) (hn : RingAt n s) (hput : exec (.put b) s = .next u) (hok : u.putOk = some true)
    (hget : exec .get u = .next v) : v.getOk = some true := by
  have hc := Config.cap_pos hl
  have hcu : 0 < u.cfg.cap := exec_cfg hput ▸ hc
  have order := hn.order
  obtain ⟨-, rfl⟩ | ⟨room, inside, rfl⟩ := execPut_cases hput
  · simp [State.putOk] at hok
  · have stored := (QueueMove.put b room inside ⟨rfl, rfl, rfl, rfl, rfl, rfl⟩).ring hc hn
    have level := (stored.atomic ha).2
    obtain ⟨empty, -⟩ | ⟨-, -, rfl⟩ := execGet_cases hget
    · have level_t := (stored.empty_iff hcu).1 empty
      simp only [level, Counts.levelled_t, Counts.levelled_h] at level_t
      omega
    · rfl

/-- Settles O22: the runs by `runOps_asGray`; right after reset a PUT is stored and not yet seen by a GET. -/
theorem atomicRunsAreGrayRuns : Obligations.AtomicRunsAreGrayRuns := by
  unfold Obligations.AtomicRunsAreGrayRuns
  refine ⟨fun i s t hl ha hq h => ?_, fun ops s t hl ha hq h => ?_, fun b s u v hl ha hq hput hget hok => ?_, ?_⟩
  · obtain ⟨⟨n, hn⟩, -⟩ := hq
    exact exec_runsInGray (Config.cap_pos hl) ha hn h
  · obtain ⟨⟨n, hn⟩, -⟩ := hq
    exact runOps_asGray hl ha hn h
  · obtain ⟨⟨n, hn⟩, -⟩ := hq
    exact get_after_put_atomic hl ha hn hput hok hget
  · exact ⟨State.reset, _, _, resetIsSafe, rfl, execPut_stores (by decide) (by decide), rfl, execGet_empty rfl, rfl⟩

end Sys2Proof.Safety
end

section
/-! PROOFS. The trace encoding (`30_encoding.md` rules R52, R57 to R60): decoder and encoder undo each other, and the
reserved words are refused. -/

namespace Sys2Proof

open Sys2Proof.Machine

/-! Decoding what the encoder wrote. -/

/-- An operand of at most 255 is read back from the `arg` field (rule R57). -/
theorem toNat_ofNat_of_le {k : Nat} (h : k ≤ 255) : (BitVec.ofNat 8 k).toNat = k := by
  rw [BitVec.toNat_ofNat, Nat.mod_eq_of_lt (by omega)]

theorem decodeSend_encoded {payload : List Byte} (h : payload.length ≤ 255) (rest : List Input) :
    decodeSend (commandWord 0x7 (BitVec.ofNat 8 payload.length))
        (payload.map (fun b => .cw (commandWord 0x9 b)) ++ rest) = .ok (.send payload, rest) := by
  rw [decodeSend, argField_commandWord, toNat_ofNat_of_le h, takeDats_map]

/-- An operation spelled by command words is read back in every state of the decoder (rules R58, R59). -/
theorem decodeCommand_encode {c : Config} {i : Instr} {w : CommandWord} {r : List Input} (hi : i.wf c = true)
    (he : encode c i = .cw w :: r) (rest : List Input) : decodeCommand w (r ++ rest) = .ok (i, rest) := by
  cases i with
  | packet | ack | nak | iam | noise b => simp [encode] at he
  | send payload =>
    cases he
    simpa [decodeCommand] using decodeSend_encoded (of_decide_eq_true hi) rest
  | synch k | synct k =>
    cases he
    have hk := toNat_ofNat_of_le (of_decide_eq_true hi)
    simp [decodeCommand, hk]
  | put b | feed b | dat b => cases he; simp [decodeCommand]
  | get | qinit | dinit | pump | syncall => cases he; simp [decodeCommand, decodeBare]
  | sendctlAck | sendctlNak | sendctlIam => cases he; simp [decodeCommand, decodeSendctl]

/-- The byte of the line that spells a wire row is of that row's class (rule R52). -/
theorem classifyStart_encode {c : Config} {i : Instr} {b : Byte} (hl : c.legal = true) (hi : i.wf c = true)
    (he : encode c i = [.wire b]) : classifyStart c b = i := by
  obtain ⟨hdr_ack, hdr_nak, hdr_iam, ack_nak, ack_iam, nak_iam⟩ := Config.codes_distinct hl
  cases i with
  | packet => cases he; simp [classifyStart]
  | ack => cases he; simp [classifyStart, hdr_ack.symm]
  | nak => cases he; simp [classifyStart, hdr_nak.symm, ack_nak.symm]
  | iam => cases he; simp [classifyStart, hdr_iam.symm, ack_iam.symm, nak_iam.symm]
  | noise b =>
    cases he
    simp only [Instr.wf, Config.isStartByte, Bool.not_eq_true', Bool.or_eq_false_iff, beq_eq_false_iff_ne] at hi
    obtain ⟨⟨⟨hhdr, hack⟩, hnak⟩, hiam⟩ := hi
    simp [classifyStart, hhdr, hack, hnak, hiam]
  | _ => simp [encode] at he

/-- Every operation is spelled by a command word with what follows it, or by one byte of the line. -/
theorem encode_cases (c : Config) (i : Instr) :
    (∃ w r, encode c i = .cw w :: r) ∨ (∃ b, encode c i = [.wire b]) := by
  cases i with
  | packet | ack | nak | iam | noise b => exact .inr ⟨_, rfl⟩
  | _ => exact .inl ⟨_, _, rfl⟩

/-- Settles O6: a command word is read alike in every state, and a byte of the line is classed while idle. -/
theorem decodeOfEncodeIsTheOperation : Obligations.DecodeOfEncodeIsTheOperation := by
  unfold Obligations.DecodeOfEncodeIsTheOperation
  intro c st i rest hl hi hst
  obtain ⟨w, r, he⟩ | ⟨b, he⟩ := encode_cases c i
  · rw [he]
    exact decodeCommand_encode hi he rest
  · obtain rfl : st = .awaitHeader := hst.resolve_right (by simp [he])
    rw [he, List.singleton_append, decode, decodeWire, if_pos rfl, classifyStart_encode hl hi he]

/-! Encoding what the decoder read. -/

/-- An operation without an operand is read from the word with `arg` 0 alone (rule R60). -/
theorem encode_of_decodeBare {c : Config} {op : BitVec 4} {arg : Byte} {i j : Instr} {rest left : List Input}
    (hj : encode c j = [.cw (commandWord op 0)]) (hw : j.wf c = true)
    (h : decodeBare (commandWord op arg) j rest = .ok (i, left)) :
    encode c i ++ left = .cw (commandWord op arg) :: rest ∧ i.wf c = true := by
  unfold decodeBare at h
  rw [argField_commandWord] at h
  split at h <;> cases h
  rename_i harg
  exact ⟨by rw [hj, harg]; rfl, hw⟩

/-- The three selectors of SENDCTL are the words of its three operations (rules R60, R96). -/
theorem encode_of_decodeSendctl (c : Config) {arg : Byte} {i : Instr} {rest left : List Input}
    (h : decodeSendctl (commandWord 0x8 arg) rest = .ok (i, left)) :
    encode c i ++ left = .cw (commandWord 0x8 arg) :: rest ∧ i.wf c = true := by
  unfold decodeSendctl at h
  rw [argField_commandWord] at h
  split_ifs at h with h0 h1 h2 <;> cases h
  · rw [h0]; exact ⟨rfl, rfl⟩
  · rw [h1]; exact ⟨rfl, rfl⟩
  · rw [h2]; exact ⟨rfl, rfl⟩

/-- A SEND is read with as many DAT words as its size says (rule R59). -/
theorem encode_of_decodeSend (c : Config) {arg : Byte} {i : Instr} {rest left : List Input}
    (h : decodeSend (commandWord 0x7 arg) rest = .ok (i, left)) :
    encode c i ++ left = .cw (commandWord 0x7 arg) :: rest ∧ i.wf c = true := by
  unfold decodeSend at h
  rw [argField_commandWord] at h
  split at h <;> cases h
  obtain ⟨hlen, rfl⟩ := takeDats_eq_some ‹_›
  refine ⟨?_, decide_eq_true (by have := arg.isLt; omega)⟩
  rw [encode, hlen, BitVec.ofNat_toNat, BitVec.setWidth_eq, List.cons_append]

/-- What is read from a command word is spelled by the word and the items taken with it (rules R58, R59). -/
theorem encode_of_decodeCommand (c : Config) {w : CommandWord} {i : Instr} {rest left : List Input}
    (h : decodeCommand w rest = .ok (i, left)) : encode c i ++ left = .cw w :: rest ∧ i.wf c = true := by
  obtain ⟨op, arg, rfl⟩ : ∃ op arg, w = commandWord op arg := ⟨_, _, (commandWord_fields w).symm⟩
  have harg : decide (arg.toNat ≤ 255) = true := decide_eq_true (Nat.le_of_lt_succ arg.isLt)
  unfold decodeCommand at h
  rw [opField_commandWord, argField_commandWord] at h
  split at h
  case h_1 e => obtain rfl : op = 0x1 := BitVec.eq_of_toNat_eq e; cases h; exact ⟨rfl, rfl⟩
  case h_2 e => obtain rfl : op = 0x2 := BitVec.eq_of_toNat_eq e; exact encode_of_decodeBare rfl rfl h
  case h_3 e => obtain rfl : op = 0x3 := BitVec.eq_of_toNat_eq e; exact encode_of_decodeBare rfl rfl h
  case h_4 e => obtain rfl : op = 0x4 := BitVec.eq_of_toNat_eq e; cases h; exact ⟨rfl, rfl⟩
  case h_5 e => obtain rfl : op = 0x5 := BitVec.eq_of_toNat_eq e; exact encode_of_decodeBare rfl rfl h
  case h_6 e => obtain rfl : op = 0x6 := BitVec.eq_of_toNat_eq e; exact encode_of_decodeBare rfl rfl h
  case h_7 e => obtain rfl : op = 0x7 := BitVec.eq_of_toNat_eq e; exact encode_of_decodeSend c h
  case h_8 e => obtain rfl : op = 0x8 := BitVec.eq_of_toNat_eq e; exact encode_of_decodeSendctl c h
  case h_9 e => obtain rfl : op = 0x9 := BitVec.eq_of_toNat_eq e; cases h; exact ⟨rfl, rfl⟩
  case h_10 e => obtain rfl : op = 0xA := BitVec.eq_of_toNat_eq e; cases h; exact ⟨by simp [encode], harg⟩
  case h_11 e => obtain rfl : op = 0xB := BitVec.eq_of_toNat_eq e; cases h; exact ⟨by simp [encode], harg⟩
  case h_12 e => obtain rfl : op = 0xC := BitVec.eq_of_toNat_eq e; exact encode_of_decodeBare rfl rfl h
  case h_13 => cases h

/-- The class of a byte of the line is spelled by that byte (rule R52). -/
theorem encode_classifyStart (c : Config) (b : Byte) :
    encode c (classifyStart c b) = [.wire b] ∧ (classifyStart c b).wf c = true := by
  unfold classifyStart
  split_ifs with hhdr hack hnak hiam
  · exact ⟨by rw [hhdr]; rfl, rfl⟩
  · exact ⟨by rw [hack]; rfl, rfl⟩
  · exact ⟨by rw [hnak]; rfl, rfl⟩
  · exact ⟨by rw [hiam]; rfl, rfl⟩
  · exact ⟨rfl, by simp [Instr.wf, Config.isStartByte, hhdr, hack, hnak, hiam]⟩

/-- Settles O7: what is read is spelled by the command word with its DAT words, or by the byte of the line. -/
theorem encodeOfDecodeIsTheTrace : Obligations.EncodeOfDecodeIsTheTrace := by
  unfold Obligations.EncodeOfDecodeIsTheTrace
  intro c items i left h
  cases items with
  | nil => simp [decode] at h
  | cons item rest =>
    cases item with
    | rst => simp [decode] at h
    | cw w => exact encode_of_decodeCommand c h
    | wire b =>
      simp only [decode, decodeWire, if_true] at h
      cases h
      obtain ⟨he, hw⟩ := encode_classifyStart c b
      exact ⟨by rw [he]; rfl, hw⟩

/-! The words that spell no operation (rule R60). -/

/-- The operations without an operand: any `arg` but 0 is reserved. -/
theorem decodeCommand_reservedArg {op : BitVec 4} {arg : Byte}
    (hop : op = 0x2 ∨ op = 0x3 ∨ op = 0x5 ∨ op = 0x6 ∨ op = 0xC) (harg : arg ≠ 0) (rest : List Input) :
    decodeCommand (commandWord op arg) rest = .error (.reservedArg (commandWord op arg)) := by
  obtain rfl | rfl | rfl | rfl | rfl := hop <;> simpa [decodeCommand, decodeBare] using harg

/-- The values of `op` that no row has. -/
theorem decodeCommand_reservedOp {op : BitVec 4} (hop : op = 0x0 ∨ op = 0xD ∨ op = 0xE ∨ op = 0xF) (arg : Byte)
    (rest : List Input) : decodeCommand (commandWord op arg) rest = .error (.reservedOp (commandWord op arg)) := by
  obtain rfl | rfl | rfl | rfl := hop <;> simp [decodeCommand]

/-- The selectors of SENDCTL from 3 on. -/
theorem decodeCommand_reservedSelector {arg : Byte} (harg : 3 ≤ arg.toNat) (rest : List Input) :
    decodeCommand (commandWord 0x8 arg) rest = .error (.reservedArg (commandWord 0x8 arg)) := by
  have small : ∀ k : Byte, k.toNat < 3 → arg ≠ k := by rintro k hk rfl; omega
  have read : decodeCommand (commandWord 0x8 arg) rest = decodeSendctl (commandWord 0x8 arg) rest := by
    simp [decodeCommand]
  rw [read, decodeSendctl, argField_commandWord, if_neg (small 0 (by decide)), if_neg (small 1 (by decide)),
    if_neg (small 2 (by decide))]

/-- A SEND with fewer DAT words behind it than its size says. -/
theorem decodeCommand_shortSend {arg : Byte} {rest : List Input}
    (short : ¬ ∃ (payload : List Byte) (left : List Input), payload.length = arg.toNat ∧
      rest = payload.map (fun b => .cw (commandWord 0x9 b)) ++ left) :
    decodeCommand (commandWord 0x7 arg) rest = .error (.shortSend arg.toNat) := by
  cases hd : takeDats arg.toNat rest with
  | some read => exact absurd ⟨read.1, read.2, takeDats_eq_some hd⟩ short
  | none => simp [decodeCommand, decodeSend, hd]

/-- Settles O5: each class of reserved words is a class of decoding errors, and a DAT word alone has no meaning. -/
theorem reservedWordsAreRefused : Obligations.ReservedWordsAreRefused := by
  unfold Obligations.ReservedWordsAreRefused
  intro s op arg rest hl hi
  have refused : ∀ e, decodeCommand (commandWord op arg) rest = .error e → step s = .refused (.reserved e) :=
    fun e he => step_of_decode_error hl hi Input.noConfusion (by rw [hi]; exact he)
  refine ⟨fun hop => refused _ (decodeCommand_reservedOp hop arg rest),
    fun hop harg => refused _ (decodeCommand_reservedArg hop harg rest), ?_, ?_, ?_⟩
  · rintro rfl harg
    exact refused _ (decodeCommand_reservedSelector harg rest)
  · rintro rfl
    have hd : decode s.cfg s.state s.inputs = .ok (.dat arg, rest) := by rw [hi]; simp [decode, decodeCommand]
    exact ⟨(step_of_decode_ok hl hd).trans rfl, rfl⟩
  · rintro rfl short
    exact refused _ (decodeCommand_shortSend short)

/-- Settles O8: each word read by the decoder. -/
theorem wordsOfTheTablesDecode : Obligations.WordsOfTheTablesDecode := by
  unfold Obligations.WordsOfTheTablesDecode
  decide

/-- Settles O9: the codes in the order of the two lists, and 7 for none of the seven results. -/
theorem resultAndStateCodes : Obligations.ResultAndStateCodes := by
  unfold Obligations.ResultAndStateCodes
  refine ⟨rfl, fun r => ?_, rfl⟩
  cases r <;> decide

end Sys2Proof
end

section
/-! PROOFS. The code in which an index crosses between the clock domains (`30_encoding.md` rule R61): the reflected
gray code of every number, then the code of a legal configuration. -/

namespace Sys2Proof

/-! The reflected gray code. -/

theorem reflected_xor (a b : Nat) : reflected (a ^^^ b) = reflected a ^^^ reflected b := by
  simp only [reflected, Nat.shiftRight_xor_distrib]
  ac_rfl

/-- The code of a block of ones is its top bit. -/
theorem reflected_ones (k : Nat) : reflected (2 ^ (k + 1) - 1) = 2 ^ k := by
  apply Nat.eq_of_testBit_eq
  intro i
  simp only [reflected, Nat.testBit_xor, Nat.testBit_shiftRight, Nat.testBit_two_pow_sub_one, Nat.testBit_two_pow]
  obtain h | rfl | h := lt_trichotomy i k
  · simp [show i < k + 1 by omega, show 1 + i < k + 1 by omega, h.ne']
  · simp
  · simp [show ¬ i < k + 1 by omega, show ¬ 1 + i < k + 1 by omega, h.ne]

/-- Counting one up flips a block of low bits. -/
theorem xor_succ_eq_ones (b : Nat) : ∃ k, b ^^^ (b + 1) = 2 ^ (k + 1) - 1 := by
  induction b using Nat.binaryRec with
  | zero => exact ⟨0, rfl⟩
  | bit low b ih =>
    cases low with
    | false => exact ⟨0, (Nat.xor_bit false b true b).trans (by simp)⟩
    | true =>
      obtain ⟨k, hk⟩ := ih
      refine ⟨k + 1, ?_⟩
      rw [show Nat.bit true b + 1 = Nat.bit false (b + 1) from rfl, Nat.xor_bit, hk, Nat.bit_val,
        pow_succ 2 (k + 1)]
      have hpos := Nat.two_pow_pos (k + 1)
      show 2 * (2 ^ (k + 1) - 1) + 1 = 2 ^ (k + 1) * 2 - 1
      omega

/-- The codes of neighbouring numbers differ in one bit. -/
theorem reflected_succ (b : Nat) : ∃ k, reflected b ^^^ reflected (b + 1) = 2 ^ k := by
  obtain ⟨k, hk⟩ := xor_succ_eq_ones b
  exact ⟨k, by rw [← reflected_xor, hk, reflected_ones]⟩

/-- The codes of a number of `n + 1` bits and of its complement differ in the top bit: the code is reflected. -/
theorem reflected_complement {n b : Nat} (hb : b < 2 ^ (n + 1)) :
    reflected b ^^^ reflected (2 ^ (n + 1) - (b + 1)) = 2 ^ n := by
  have ones : b ^^^ (2 ^ (n + 1) - (b + 1)) = 2 ^ (n + 1) - 1 := by
    apply Nat.eq_of_testBit_eq
    intro i
    rw [Nat.testBit_xor, Nat.testBit_two_pow_sub_succ hb, Nat.testBit_two_pow_sub_one]
    by_cases hi : i < n + 1
    · simp [hi]
    · simp [hi, Nat.testBit_lt_two_pow (lt_of_lt_of_le hb (Nat.pow_le_pow_right (by decide) (not_lt.1 hi)))]
  rw [← reflected_xor, ones, reflected_ones]

theorem reflected_lt {n b : Nat} (hb : b < 2 ^ n) : reflected b < 2 ^ n :=
  Nat.xor_lt_two_pow hb (lt_of_le_of_lt (Nat.shiftRight_le b 1) hb)

theorem reflected_div_two (b : Nat) : reflected b / 2 = reflected (b / 2) := by
  simp only [← Nat.shiftRight_one, reflected, Nat.shiftRight_xor_distrib]

theorem reflected_mod_two (b : Nat) : reflected b % 2 = (b + b / 2) % 2 := by
  rw [reflected, Nat.shiftRight_one, Nat.xor_mod_two_eq]

/-- Reading the code bit by bit gives the number back. -/
theorem unreflect_reflected {n b : Nat} (hb : b < 2 ^ n) : unreflect n (reflected b) = b := by
  induction n generalizing b with
  | zero => simp only [pow_zero, Nat.lt_one_iff] at hb; simp [unreflect, hb]
  | succ n ih =>
    rw [unreflect, reflected_div_two, ih (by rw [pow_succ] at hb; omega)]
    have := reflected_mod_two b
    omega

/-! The code of a legal configuration. -/

/-- Twice the offset is what the ring leaves of `2^AW`. -/
theorem two_mul_grayOffset {c : Config} (hl : c.legal = true) (hg : c.cdc = .gray) :
    2 * c.grayOffset = 2 ^ c.indexWidth - c.cap := by
  have heven := Config.cap_even hl hg
  have hpow : 2 ^ c.indexWidth = 2 * 2 ^ Nat.log2 (c.cap - 1) := by rw [Config.indexWidth, pow_succ, Nat.mul_comm]
  unfold Config.grayOffset
  omega

/-- `AW` bits are enough for an index (rule R5). -/
theorem cap_le_two_pow_indexWidth (c : Config) : c.cap ≤ 2 ^ c.indexWidth := by
  have : c.cap - 1 < 2 ^ c.indexWidth := Nat.lt_log2_self
  omega

/-- The offset leaves every index inside `AW` bits. -/
theorem add_grayOffset_lt {c : Config} {i : Nat} (hi : i < c.cap) : i + c.grayOffset < 2 ^ c.indexWidth := by
  have := cap_le_two_pow_indexWidth c
  unfold Config.grayOffset
  omega

theorem grayEnc_lt {c : Config} {i : Nat} (hi : i < c.cap) : c.grayEnc i < 2 ^ c.indexWidth :=
  reflected_lt (add_grayOffset_lt hi)

theorem grayDec_grayEnc {c : Config} {i : Nat} (hi : i < c.cap) : c.grayDec (c.grayEnc i) = i := by
  rw [Config.grayDec, Config.grayEnc, unreflect_reflected (add_grayOffset_lt hi), Nat.add_sub_cancel]

theorem grayEnc_injective {c : Config} {i j : Nat} (hi : i < c.cap) (hj : j < c.cap)
    (h : c.grayEnc i = c.grayEnc j) : i = j := by
  rw [← grayDec_grayEnc hi, h, grayDec_grayEnc hj]

/-- The words of the last index and of 0 are reflections of each other, as the two ends are equally far from the ends
of the code; elsewhere the next index is the next number. -/
theorem grayEnc_xor_inc {c : Config} {i : Nat} (hl : c.legal = true) (hg : c.cdc = .gray) (hi : i < c.cap) :
    ∃ k, c.grayEnc i ^^^ c.grayEnc (c.inc i) = 2 ^ k := by
  obtain hlt | hlast : i + 1 < c.cap ∨ i + 1 = c.cap := by omega
  · have hnext : c.grayEnc (c.inc i) = reflected (i + c.grayOffset + 1) := by
      rw [Config.grayEnc, Config.inc, Nat.mod_eq_of_lt hlt, Nat.add_right_comm]
    rw [hnext]
    exact reflected_succ _
  · have hoffset := two_mul_grayOffset hl hg
    have hcap := cap_le_two_pow_indexWidth c
    have hwrap : c.grayEnc (c.inc i) = reflected (2 ^ c.indexWidth - (i + c.grayOffset + 1)) := by
      rw [Config.grayEnc, Config.inc, hlast, Nat.mod_self]
      congr 1
      omega
    rw [hwrap]
    exact ⟨_, reflected_complement (add_grayOffset_lt hi)⟩

/-- One of the `AW` bits changes from an index to the next, the step back to 0 included. -/
theorem grayEnc_changes_one_bit {c : Config} {i : Nat} (hl : c.legal = true) (hg : c.cdc = .gray) (hi : i < c.cap) :
    ∃ k < c.indexWidth, c.grayEnc i ^^^ c.grayEnc (c.inc i) = 2 ^ k := by
  obtain ⟨k, hk⟩ := grayEnc_xor_inc hl hg hi
  have hlt := Nat.xor_lt_two_pow (grayEnc_lt hi) (grayEnc_lt (Config.inc_lt (Config.cap_pos hl) i))
  rw [hk] at hlt
  exact ⟨k, (Nat.pow_lt_pow_iff_right (by decide)).1 hlt, hk⟩

/-- A code is 0 for the number 0 alone. -/
theorem grayEnc_zero_iff (c : Config) : c.grayEnc 0 = 0 ↔ c.grayOffset = 0 := by
  rw [Config.grayEnc, Nat.zero_add]
  constructor
  · intro h
    have half : c.grayOffset = c.grayOffset / 2 := by simpa [reflected, Nat.shiftRight_one, Nat.xor_eq_zero_iff] using h
    omega
  · intro h
    rw [h]
    rfl

/-- A word depends on the capacity alone. -/
theorem grayEnc_congr {c d : Config} (h : c.cap = d.cap) : c.grayEnc = d.grayEnc := by
  funext i
  simp only [Config.grayEnc, Config.grayOffset, Config.indexWidth, h]

/-- Settles O10: the code reflected around its middle, with an offset that puts the ring there. -/
theorem grayCodeChangesOneBit : Obligations.GrayCodeChangesOneBit := by
  unfold Obligations.GrayCodeChangesOneBit
  intro c hl hg
  refine ⟨two_mul_grayOffset hl hg, cap_le_two_pow_indexWidth c, fun _ _ => rfl, fun _ => grayEnc_lt,
    fun _ => grayEnc_changes_one_bit hl hg, fun _ hi _ hj => grayEnc_injective hi hj, fun _ => grayDec_grayEnc,
    fun hcap => ?_, grayEnc_zero_iff c, fun hcap => ?_⟩
  · rw [Config.grayOffset, ← hcap, Nat.sub_self]
  · rw [grayEnc_congr (d := Config.ref) hcap]
    decide

end Sys2Proof
end

section
/-! PROOFS. The pseudo-operations RX and DRAIN (`30_encoding.md` rule R64): a byte put and synchronised is seen, and
PUMPs take out all that is seen. -/

namespace Sys2Proof.Safety

open Sys2Proof.Machine

/-- Settles O26: the PUT adds the byte at the end, and SYNCALL lets the read domain see all that is pending. -/
theorem rxMakesTheByteVisible : Obligations.RxMakesTheByteVisible := by
  unfold Obligations.RxMakesTheByteVisible
  intro b s hs hroom
  obtain ⟨⟨n, hn⟩, -⟩ := hs.queue
  have hc := Config.cap_pos hs.legal
  have room : n.h < n.tw + (s.cfg.cap - 1) := by
    have notFull : s.cfg.inc s.head ≠ s.tailSeen := by simpa [State.fullW] using hroom
    rw [ne_eq, hn.full_iff hc] at notFull
    have := hn.order
    omega
  obtain ⟨u, m, hput, -, hucfg, hm, -, -, hupend⟩ := put_appends hc hn room b
  rw [← hucfg] at hc
  obtain ⟨t, k, hsync, htcfg, hk, level, htpend⟩ := syncall_levels hc hm
  rw [← htcfg] at hc
  have hpend : pending t = pending s ++ [b] := htpend.trans hupend
  refine ⟨t, andThen_eq_next.2 ⟨u, hput, andThen_eq_next.2 ⟨t, hsync, rfl⟩⟩, ?_, hpend⟩
  have count : k.h - k.t = (pending s).length + 1 := by
    rw [← hk.pendingCount hc, ← pending_length, hpend, List.length_append, List.length_singleton]
  have seen : t.tail ≠ t.headSeen := by
    rw [ne_eq, hk.empty_iff hc]
    omega
  simpa [State.emptyR] using seen

/-- A PUMP that finds a byte moves the queue by it, and what the read domain sees of `head` stays (rules R14, R87). -/
theorem pump_takes_first {n : Counts} {s : State} (hs : Inv s) (hn : RingAt n s) (seen : n.t < n.hr) :
    ∃ u m, exec .pump s = .next u ∧ u.getOk = some true ∧ u.headSeen = s.headSeen ∧ Inv u ∧
      RingAt m u ∧ m.t = n.t + 1 ∧ m.hr = n.hr := by
  have hc := Config.cap_pos hs.legal
  have notEmpty : s.tail ≠ s.headSeen := by rw [ne_eq, hn.empty_iff hc]; omega
  obtain ⟨-, -, -, hd⟩ := inv_iff.1 hs
  obtain ⟨u, hu⟩ := execPump_completes (hn.tail ▸ Nat.mod_lt _ hc) hd
  obtain ⟨empty, -⟩ | ⟨-, -, r, v, hv, rfl⟩ := execPump_cases hu
  · exact absurd empty notEmpty
  · have same : SameQueue { s with tail := s.cfg.inc s.tail } { v with ports := .pump true r } := by
      rw [feedByte_frame hv]
      exact ⟨rfl, rfl, rfl, rfl, rfl, rfl⟩
    exact ⟨_, _, hu, rfl, State.headSeen_congr same.cfg same.head same.headRd, exec_inv (i := .pump) hs hu,
      (QueueMove.take notEmpty same).ring hc hn, Counts.levelled_t _ _, Counts.levelled_hr fun ha => (hn.atomic ha).2⟩

/-- With more PUMPs allowed than bytes seen, the draining ends in a PUMP that finds the queue empty. -/
theorem drain_empties {fuel : Nat} {n : Counts} {s : State} (hs : Inv s) (hn : RingAt n s)
    (enough : n.hr < n.t + fuel) :
    ∃ t, drain fuel s = .next t ∧ t.getOk = some false ∧ t.tail = t.headSeen ∧ t.headSeen = s.headSeen ∧ Inv t := by
  induction fuel generalizing n s with
  | zero =>
    have := hn.order
    omega
  | succ fuel ih =>
    obtain seen | none_seen : n.t < n.hr ∨ n.t = n.hr := by
      have := hn.order
      omega
    · obtain ⟨u, m, hu, hok, hseen, hinv, hm, ht, hhr⟩ := pump_takes_first hs hn seen
      obtain ⟨t, hdrain, hfalse, hempty, hsame, htinv⟩ := ih hinv hm (by omega)
      refine ⟨t, andThen_eq_next.2 ⟨u, hu, ?_⟩, hfalse, hempty, hsame.trans hseen, htinv⟩
      rw [if_neg (by rw [hok]; decide), hdrain]
    · have hempty := (hn.empty_iff (Config.cap_pos hs.legal)).2 none_seen
      have hpump : exec .pump s = .next { s with ports := .pump false .inProgress } := execPump_empty hempty
      exact ⟨_, andThen_eq_next.2 ⟨_, hpump, if_pos rfl⟩, rfl, hempty, rfl, exec_inv hs hpump⟩

/-- Settles O27: the read domain never sees more than `C - 1` bytes. -/
theorem drainEmptiesTheQueue : Obligations.DrainEmptiesTheQueue := by
  unfold Obligations.DrainEmptiesTheQueue
  intro s hs
  obtain ⟨⟨n, hn⟩, -⟩ := hs.queue
  have order := hn.order
  have hc := Config.cap_pos hs.legal
  obtain ⟨t, hdrain, hok, hempty, hseen, hinv⟩ := drain_empties (fuel := s.cfg.cap) hs hn (by omega)
  exact ⟨t, hdrain, hok, by simpa [State.emptyR] using hempty, hempty.trans hseen, hinv⟩

end Sys2Proof.Safety
end

section
/-! PROOFS. Messages on the line (`30_encoding.md` rules R50 to R53, R62): what the bytes of each message do when they
are fed one at a time to an idle decoder, and that the decoder finds the messages that rule R53 reads. -/

namespace Sys2Proof.Machine

/-! Outside AwaitHeader (rule R62, conflict C2). -/

/-- No byte fed outside AwaitHeader is taken as a control code. -/
theorem feedByte_not_control {b : Byte} {s u : State} {r : DecodeResult} (hs : s.state ≠ .awaitHeader)
    (h : feedByte b s = .next (r, u)) : r ≠ .ackReceived ∧ r ≠ .nakReceived ∧ r ≠ .iamReceived := by
  obtain ⟨e, -⟩ | ⟨e, -⟩ | ⟨-, -, rfl, -⟩ | ⟨-, -, rfl, -⟩ | ⟨-, -, rfl, -⟩ | ⟨-, -, -, rfl, -⟩ | ⟨-, -, -, rfl, -⟩ :=
    feedByte_cases h
  · exact absurd e hs
  · exact absurd e hs
  all_goals decide

/-- A byte fed in AwaitPayload is stored, whatever it is (`41_packetdecoder.md` rule R83). -/
theorem feedByte_stores_payload {b : Byte} {s u : State} {r : DecodeResult} (hs : s.state = .awaitPayload)
    (h : feedByte b s = .next (r, u)) : u.byteAt .packet s.writeIndex = b := by
  rw [feedByte_awaitPayload hs] at h
  by_cases hw : s.writeIndex < s.cfg.packetMax
  · rw [feedPayload_spec b hw] at h
    cases h
    exact State.byteAt_of_find (sp := .packet) (Memory.find_store_same _ _ _)
  · rw [Safety.feedPayload_outside (not_lt.1 hw)] at h
    cases h

/-- Settles O38: the decoder's state alone makes the byte data, and FEED takes it as such. -/
theorem outsideIdleEveryByteIsData : Obligations.OutsideIdleEveryByteIsData := by
  unfold Obligations.OutsideIdleEveryByteIsData
  intro b s rest hs
  refine ⟨by rw [decode, decodeWire, if_neg hs], fun t h => ?_⟩
  obtain ⟨r, u, hu, rfl⟩ := feedAndReport_eq_next.1 h
  obtain ⟨hack, hnak, hiam⟩ := feedByte_not_control hs hu
  refine ⟨mt Option.some.inj hack, mt Option.some.inj hnak, mt Option.some.inj hiam, fun hp => ?_⟩
  rw [State.report_byteAt]
  exact feedByte_stores_payload hp hu

/-! The bytes of a message, fed to an idle decoder. -/

/-- One byte fed and nothing after it. -/
theorem feedAll_singleton {b : Byte} {s u : State} {r : DecodeResult} (h : feedByte b s = .next (r, u)) :
    feedAll [b] s = .next ([r], { u with ports := .feed r }) := feedAll_cons h rfl

/-- A framed packet without its checksum byte (rule R50). -/
def frameHead (c : Config) (payload : List Byte) : List Byte :=
  c.hdr :: BitVec.ofNat 8 payload.length :: payload

theorem frame_eq (c : Config) (payload : List Byte) : frame c payload = frameHead c payload ++ [xorBytes payload] := rfl

@[simp] theorem frameHead_length (c : Config) (payload : List Byte) :
    (frameHead c payload).length = payload.length + 2 := rfl

/-- An idle decoder that was in state `s` has been fed all of a packet but the checksum byte, and is in state `u`. -/
structure AwaitsChecksumOf (payload : List Byte) (s u : State) : Prop where
  cfg : u.cfg = s.cfg
  state : u.state = .awaitChecksum
  writeIndex : u.writeIndex = payload.length + 2
  checksum : u.checksum = xorBytes payload
  outbuf : u.outbuf = s.outbuf
  packet : ∀ a (h : a < (frameHead s.cfg payload).length), u.byteAt .packet a = (frameHead s.cfg payload)[a]

/-- The block after the header byte (rule R81). -/
def afterHeader (s : State) : State :=
  { s with packet := s.packet.store 0 s.cfg.hdr, state := .awaitLength, ports := .feed .inProgress }

/-- The header byte, fed before others. -/
theorem feedAll_header {bytes : List Byte} {s t : State} {rs : List DecodeResult} (hs : s.state = .awaitHeader)
    (h : feedAll bytes (afterHeader s) = .next (rs, t)) :
    feedAll (s.cfg.hdr :: bytes) s = .next (.inProgress :: rs, t) :=
  feedAll_cons ((feedByte_awaitHeader hs s.cfg.hdr).trans (feedHeader_hdr s)) h

/-- FEED of any length byte after the header (rule R82). -/
theorem feedByte_afterHeader (len : Byte) (s : State) :
    feedByte len (afterHeader s) = feedLength len (afterHeader s) := feedByte_awaitLength rfl len

/-- The block after the header and a legal length byte (rules R81, R82). -/
def afterLength (len : Byte) (s : State) : State :=
  { afterHeader s with packet := (afterHeader s).packet.store 1 len, checksum := 0, writeIndex := 2,
                       state := if len = 0 then .awaitChecksum else .awaitPayload }

theorem afterLength_byteAt_zero (len : Byte) (s : State) : (afterLength len s).byteAt .packet 0 = s.cfg.hdr := by
  simp [afterLength, afterHeader, State.byteAt, State.mem, Memory.find_store_other]

theorem afterLength_byteAt_one (len : Byte) (s : State) : (afterLength len s).byteAt .packet 1 = len := by
  simp [afterLength, State.byteAt, State.mem]

/-- The header and a legal length byte, fed before others. -/
theorem feedAll_header_length {len : Byte} {bytes : List Byte} {s t : State} {rs : List DecodeResult}
    (hs : s.state = .awaitHeader) (hlen : len.toNat ≤ s.cfg.maxPay)
    (h : feedAll bytes (afterLength len s) = .next (rs, t)) :
    feedAll (s.cfg.hdr :: len :: bytes) s = .next (.inProgress :: .inProgress :: rs, t) := by
  have length := (feedByte_afterHeader len s).trans ((feedLength_spec len _).trans (if_neg hlen.not_gt))
  exact feedAll_header hs (feedAll_cons length h)

/-- All of a legal packet but its checksum byte: InProgress for each byte, and the checksum byte awaited (rules R81 to
R83, conflict C1 for the empty payload). -/
theorem feedAll_frameHead {payload : List Byte} {s : State} (hl : s.cfg.legal = true) (hs : s.state = .awaitHeader)
    (hp : payload.length ≤ s.cfg.maxPay) :
    ∃ u, feedAll (frameHead s.cfg payload) s = .next (List.replicate (payload.length + 2) .inProgress, u) ∧
      AwaitsChecksumOf payload s u := by
  set len : Byte := BitVec.ofNat 8 payload.length with hlen
  have toNat_len : len.toNat = payload.length := toNat_ofNat_of_le (hp.trans (Config.maxPay_le hl))
  have hfits : len.toNat ≤ s.cfg.maxPay := toNat_len ▸ hp
  have byte_zero := afterLength_byteAt_zero len s
  have byte_one := afterLength_byteAt_one len s
  by_cases hempty : payload = []
  · subst hempty
    refine ⟨afterLength 0 s, feedAll_header_length hs hfits rfl, rfl, rfl, rfl, rfl, rfl, fun a ha => ?_⟩
    obtain rfl | rfl : a = 0 ∨ a = 1 := by rw [frameHead_length, List.length_nil] at ha; omega
    · exact byte_zero
    · exact byte_one
  · have hlen0 : len ≠ 0 := by
      intro h0
      rw [h0] at toNat_len
      exact hempty (List.eq_nil_of_length_eq_zero toNat_len.symm)
    obtain ⟨u, hfed, hstate, hsum, hindex, hcfg, hout, hnew, hold⟩ :=
      feedAll_payload (s := afterLength len s) hempty (if_neg hlen0) (by rw [byte_one]; exact hfits) le_rfl
        (by rw [byte_one, toNat_len]; exact Nat.add_comm _ _)
    refine ⟨u, feedAll_header_length hs hfits hfed, hcfg, hstate, hindex.trans (Nat.add_comm _ _), ?_, hout,
      fun a ha => ?_⟩
    · rw [hsum]
      exact BitVec.zero_xor
    · match a with
      | 0 => exact (hold 0 Nat.two_pos).trans byte_zero
      | 1 => exact (hold 1 Nat.one_lt_two).trans byte_one
      | j + 2 =>
        have hj : j < payload.length := by rw [frameHead_length] at ha; omega
        exact (congrArg _ (Nat.add_comm j 2)).trans (hnew j hj)

/-- The output buffer after a copy of the assembly buffer with one more byte in it. -/
theorem byteAt_copied_store {u t : State} {outbuf : Memory} {b : Byte} {i n a : Nat}
    (ht : t.outbuf = copiedTo (u.packet.store i b) outbuf n) (ha : a < n) :
    t.byteAt .outbuf a = if a = i then b else u.byteAt .packet a := by
  have hfind := (copiedTo_find (u.packet.store i b) outbuf n a).trans (if_pos ha)
  rw [← ht] at hfind
  rw [State.byteAt_of_find (sp := .outbuf) hfind, Memory.find_store]
  split_ifs <;> rfl

/-- A good packet: PacketReceived on its last byte, and the packet in the output buffer (rule R84). -/
theorem feedAll_frame {payload : List Byte} {s : State} (hl : s.cfg.legal = true) (hs : s.state = .awaitHeader)
    (hp : payload.length ≤ s.cfg.maxPay) :
    ∃ t, feedAll (frame s.cfg payload) s =
        .next (List.replicate (payload.length + 2) .inProgress ++ [.packetReceived], t) ∧
      t.state = .awaitHeader ∧
      ∀ a (h : a < (frame s.cfg payload).length), t.byteAt .outbuf a = (frame s.cfg payload)[a] := by
  obtain ⟨u, hfed, hu⟩ := feedAll_frameHead hl hs hp
  have byte_one : (u.byteAt .packet 1).toNat = payload.length := by
    rw [hu.packet 1 (by rw [frameHead_length]; omega)]
    exact toNat_ofNat_of_le (hp.trans (Config.maxPay_le hl))
  have last := (feedByte_awaitChecksum hu.state u.checksum).trans (feedChecksum_match
    (by rw [hu.writeIndex, hu.cfg, Config.packetMax]; omega) (by rw [byte_one, hu.cfg]; exact hp))
  rw [hu.checksum] at last
  refine ⟨_, feedAll_append hfed (feedAll_singleton last), rfl, fun a ha => ?_⟩
  rw [frame_length] at ha
  rw [byteAt_copied_store (u := u) rfl (by rw [byte_one]; exact ha), hu.writeIndex]
  obtain hin | rfl := Nat.lt_succ_iff_lt_or_eq.1 ha
  · rw [if_neg hin.ne]
    exact (hu.packet a hin).trans (List.getElem_append_left hin).symm
  · rw [if_pos rfl]
    exact (List.getElem_concat_length (l := frameHead s.cfg payload) rfl _).symm

/-- A packet with another checksum byte: ChecksumError on it, and the output buffer left alone (rule R84). -/
theorem feedAll_corrupt {payload : List Byte} {b : Byte} {s : State} (hl : s.cfg.legal = true)
    (hs : s.state = .awaitHeader) (hp : payload.length ≤ s.cfg.maxPay) (hb : b ≠ xorBytes payload) :
    ∃ t, feedAll (frameHead s.cfg payload ++ [b]) s =
        .next (List.replicate (payload.length + 2) .inProgress ++ [.checksumError], t) ∧
      t.state = .awaitHeader ∧ t.outbuf = s.outbuf := by
  obtain ⟨u, hfed, hu⟩ := feedAll_frameHead hl hs hp
  have last := (feedByte_awaitChecksum hu.state b).trans (feedChecksum_mismatch
    (by rw [hu.writeIndex, hu.cfg, Config.packetMax]; omega) (by rw [hu.checksum]; exact hb))
  exact ⟨_, feedAll_append hfed (feedAll_singleton last), rfl, hu.outbuf⟩

/-- A header and a length byte above `MAXPAY`: SizeError on the second of them (rule R82). -/
theorem feedAll_oversize {len : Byte} {s : State} (hs : s.state = .awaitHeader) (hlen : s.cfg.maxPay < len.toNat) :
    ∃ t, feedAll [s.cfg.hdr, len] s = .next ([.inProgress, .sizeError], t) ∧ t.state = .awaitHeader ∧
      t.outbuf = s.outbuf := by
  have length := (feedByte_afterHeader len s).trans ((feedLength_spec len _).trans (if_pos hlen))
  exact ⟨_, feedAll_header hs (feedAll_singleton length), rfl, rfl⟩

/-- The result of a byte other than the header for an idle decoder (rule R81). -/
def startResult (c : Config) (b : Byte) : DecodeResult :=
  if b = c.ack then .ackReceived else if b = c.nak then .nakReceived else if b = c.iam then .iamReceived
  else .inProgress

/-- A byte other than the header is a message by itself, and leaves the decoder idle (rule R81). -/
theorem feedAll_start {b : Byte} {s : State} (hs : s.state = .awaitHeader) (hb : b ≠ s.cfg.hdr) :
    ∃ t, feedAll [b] s = .next ([startResult s.cfg b], t) ∧ t.state = .awaitHeader ∧ t.outbuf = s.outbuf :=
  ⟨_, feedAll_singleton ((feedByte_awaitHeader hs b).trans (Safety.feedHeader_other hb)), hs, rfl⟩

/-! The messages that rule R53 reads. -/

/-- What follows a header byte, if it is not cut short: a length byte above `MAXPAY`, or the rest of a packet with a
right or a wrong checksum byte. -/
theorem readFrame_cases {c : Config} {bytes rest : List Byte} {m : Message} (h : readFrame c bytes = (m, rest))
    (hm : m ≠ .incomplete) :
    (∃ len, bytes = len :: rest ∧ c.maxPay < len.toNat ∧ m = .oversize len) ∨
    (∃ payload, c.hdr :: bytes = frame c payload ++ rest ∧ payload.length ≤ c.maxPay ∧ m = .packet payload) ∨
    (∃ payload b, c.hdr :: bytes = frameHead c payload ++ [b] ++ rest ∧ payload.length ≤ c.maxPay ∧
      b ≠ xorBytes payload ∧ m = .corrupt payload b) := by
  cases bytes with
  | nil => cases h; exact absurd rfl hm
  | cons len tail =>
    rw [readFrame] at h
    by_cases hlen : exceedsMax c len = true
    · rw [if_pos hlen] at h
      cases h
      exact .inl ⟨len, rfl, (exceedsMax_iff c len).1 hlen, rfl⟩
    · rw [if_neg hlen] at h
      cases hdrop : tail.drop len.toNat with
      | nil => simp only [hdrop] at h; cases h; exact absurd rfl hm
      | cons b left =>
        simp only [hdrop] at h
        set payload := tail.take len.toNat with hpayload
        have hlength : payload.length = len.toNat := by
          have := congrArg List.length hdrop
          rw [List.length_drop, List.length_cons] at this
          rw [hpayload, List.length_take]
          omega
        have hbytes : c.hdr :: len :: tail = frameHead c payload ++ [b] ++ left := by
          rw [List.append_assoc, List.singleton_append, ← hdrop, frameHead, hlength, BitVec.ofNat_toNat,
            BitVec.setWidth_eq, List.cons_append, List.cons_append, List.take_append_drop]
        have hp : payload.length ≤ c.maxPay := hlength ▸ not_lt.1 (mt (exceedsMax_iff c len).2 hlen)
        by_cases hb : b = xorBytes payload
        · rw [if_pos hb] at h
          cases h
          exact .inr (.inl ⟨payload, by rw [hbytes, hb, frame_eq], hp, rfl⟩)
        · rw [if_neg hb] at h
          cases h
          exact .inr (.inr ⟨payload, b, hbytes, hp, hb, rfl⟩)

/-- A byte at the front of the line that is not the header is read as a message by itself. -/
theorem readMessage_start {c : Config} {b : Byte} {tail rest : List Byte} {m : Message} (hb : b ≠ c.hdr)
    (h : readMessage c (b :: tail) = (m, rest)) :
    tail = rest ∧ m.result = startResult c b ∧ ∀ payload, m ≠ .packet payload := by
  rw [readMessage, if_neg hb] at h
  unfold startResult
  split_ifs at h ⊢ <;> cases h <;> exact ⟨rfl, rfl, fun _ => Message.noConfusion⟩

/-- Settles O39: the messages one by one, each read by rule R53 and fed by rules R81 to R84. -/
theorem decoderFindsMessageBoundaries : Obligations.DecoderFindsMessageBoundaries := by
  unfold Obligations.DecoderFindsMessageBoundaries
  intro s bytes rest m hl hs hread hm
  cases bytes with
  | nil => cases hread; exact absurd rfl hm
  | cons first tail =>
    by_cases hfirst : first = s.cfg.hdr
    · subst hfirst
      rw [readMessage, if_pos rfl] at hread
      obtain ⟨len, rfl, hlen, rfl⟩ | ⟨payload, hbytes, hp, rfl⟩ | ⟨payload, b, hbytes, hp, hb, rfl⟩ :=
        readFrame_cases hread hm
      · obtain ⟨t, hfed, hidle, hout⟩ := feedAll_oversize hs hlen
        exact ⟨[s.cfg.hdr, len], t, rfl, List.cons_ne_nil _ _, hfed, hidle, fun _ => nofun, fun _ => hout⟩
      · obtain ⟨t, hfed, hidle, hout⟩ := feedAll_frame hl hs hp
        refine ⟨frame s.cfg payload, t, hbytes, List.cons_ne_nil _ _, ?_, hidle, ?_, fun h => absurd rfl (h payload)⟩
        · rw [hfed, frame_length]
          rfl
        · rintro _ ⟨⟩
          exact ⟨rfl, hout⟩
      · obtain ⟨t, hfed, hidle, hout⟩ := feedAll_corrupt hl hs hp hb
        refine ⟨frameHead s.cfg payload ++ [b], t, hbytes, List.cons_ne_nil _ _, ?_, hidle, fun _ => nofun,
          fun _ => hout⟩
        rw [hfed, List.length_append, frameHead_length]
        rfl
    · obtain ⟨rfl, hresult, hother⟩ := readMessage_start hfirst hread
      obtain ⟨t, hfed, hidle, hout⟩ := feedAll_start hs hfirst
      exact ⟨[first], t, rfl, List.cons_ne_nil _ _, by rw [hfed, hresult]; rfl, hidle,
        fun payload h => absurd h (hother payload), fun _ => hout⟩

end Sys2Proof.Machine
end

section
/-! PROOFS. The operations of the byte queue (`40_bytequeue.md` rules R70 to R76), one by one: outcomes, encoding and
frame. -/

namespace Sys2Proof.Safety

open Sys2Proof.Machine

/-! The queue storage after a PUT, the cleared queue, and the copies of a gray block. -/

/-- The slot that a completed PUT wrote reads as the byte, and every other slot as before (rule R70). -/
theorem byteAt_buf_store {s t : State} {a : Nat} {b : Byte} (h : t.buf = s.buf.store a b) (a' : Nat) :
    t.byteAt .buf a' = if a' = a then b else s.byteAt .buf a' :=
  (State.byteAt_congr (s := s.setMem .buf (s.buf.store a b)) (sp := .buf) h a').trans (State.byteAt_store s .buf a a' b)

/-- From 0 to 0 there is no step, even on a ring without slots. -/
theorem dist_zero_zero (c : Config) : c.dist 0 0 = 0 := by
  simp [Config.dist]

/-- Nothing is pending in the cleared queue, whatever it was (rule R72). -/
theorem clearQueue_pending (s : State) : pending (clearQueue s) = [] := by
  have none_pending : pendingCount (clearQueue s) = 0 := by
    rw [pendingCount, clearQueue_tail, clearQueue_head, dist_zero_zero]
  exact List.eq_nil_of_length_eq_zero ((pending_length _).trans none_pending)

theorem setHeadRd_gray {s : State} (hg : s.cfg.cdc = .gray) (v : Nat) : s.setHeadRd v = { s with headRd := v } := by
  simp [State.setHeadRd, hg]

theorem setTailWr_gray {s : State} (hg : s.cfg.cdc = .gray) (v : Nat) : s.setTailWr v = { s with tailWr := v } := by
  simp [State.setTailWr, hg]

/-! SYNCH and SYNCT, by how the two sides see each other's index (rules R14, R73, R74). -/

theorem execSynch_gray {k : Nat} {s : State} (hg : s.cfg.cdc = .gray) :
    execSynch k s =
      if k ≤ s.cfg.dist s.headRd s.head then
        .next { s with headRd := (s.headRd + k) % s.cfg.cap, ports := .quiet }
      else .refused .syncNotEnabled := by
  rw [execSynch, State.headSeen_gray hg, setHeadRd_gray hg]
  rfl

theorem execSynct_gray {k : Nat} {s : State} (hg : s.cfg.cdc = .gray) :
    execSynct k s =
      if k ≤ s.cfg.dist s.tailWr s.tail then
        .next { s with tailWr := (s.tailWr + k) % s.cfg.cap, ports := .quiet }
      else .refused .syncNotEnabled := by
  rw [execSynct, State.tailSeen_gray hg, setTailWr_gray hg]
  rfl

/-- With `CDC = atomic` there is no lag to catch up with. -/
theorem execSynch_atomic_eq {k : Nat} {s : State} (hc : 0 < s.cfg.cap) (ha : s.cfg.cdc = .atomic) :
    execSynch k s = if k ≤ 0 then .next { s with ports := .quiet } else .refused .syncNotEnabled := by
  rw [execSynch, State.headSeen_atomic ha, Config.dist_self hc, setHeadRd_atomic ha]
  rfl

/-- With `CDC = atomic` there is no lag to catch up with. -/
theorem execSynct_atomic_eq {k : Nat} {s : State} (hc : 0 < s.cfg.cap) (ha : s.cfg.cdc = .atomic) :
    execSynct k s = if k ≤ 0 then .next { s with ports := .quiet } else .refused .syncNotEnabled := by
  rw [execSynct, State.tailSeen_atomic ha, Config.dist_self hc, setTailWr_atomic ha]
  rfl

/-- A SYNCH by the whole lag makes the read domain's copy level (rule R75). -/
theorem execSynch_wholeLag {s : State} (hh : s.head < s.cfg.cap) :
    execSynch (s.cfg.dist s.headSeen s.head) s = .next ((s.setHeadRd s.head).report .quiet) := by
  rw [execSynch, if_pos le_rfl, Config.add_dist _ hh]

/-- A SYNCT by the whole lag makes the write domain's copy level (rule R75). -/
theorem execSynct_wholeLag {s : State} (ht : s.tail < s.cfg.cap) :
    execSynct (s.cfg.dist s.tailSeen s.tail) s = .next ((s.setTailWr s.tail).report .quiet) := by
  rw [execSynct, if_pos le_rfl, Config.add_dist _ ht]

/-! The obligations. -/

/-- Settles O11: seen full or not, by the one comparison that PUT makes. -/
theorem putStoresAByteOrReportsQueueFull : Obligations.PutStoresAByteOrReportsQueueFull := by
  unfold Obligations.PutStoresAByteOrReportsQueueFull
  refine fun b s => ⟨rfl, fun full => execPut_full full, fun room inside => ⟨_, execPut_stores room inside, rfl, ?_⟩⟩
  exact ⟨(byteAt_buf_store rfl _).trans (if_pos rfl), fun a ha => (byteAt_buf_store rfl a).trans (if_neg ha)⟩

/-- Settles O12: seen empty or not, by the one comparison that GET makes. -/
theorem getTakesAByteOrReportsQueueEmpty : Obligations.GetTakesAByteOrReportsQueueEmpty := by
  unfold Obligations.GetTakesAByteOrReportsQueueEmpty
  exact fun s => ⟨rfl, fun empty => execGet_empty empty, fun seen inside => execGet_takes seen inside⟩

/-- Settles O13: QINIT clears the queue, which puts the ghost counts at their start. -/
theorem qinitEmptiesTheQueue : Obligations.QinitEmptiesTheQueue := by
  unfold Obligations.QinitEmptiesTheQueue
  intro s
  have frame : (clearQueue s).report .quiet =
      { s with head := 0, tail := 0, headRd := (clearQueue s).headRd, tailWr := (clearQueue s).tailWr,
               ports := .quiet } := by
    rw [clearQueue, State.setBothCopies_frame]
    rfl
  have same : SameQueue (clearQueue s) ((clearQueue s).report .quiet) := ⟨rfl, rfl, rfl, rfl, rfl, rfl⟩
  exact ⟨rfl, _, rfl, frame, clearQueue_headSeen s, clearQueue_tailSeen s, (clearQueue_ring s).congr same,
    same.pending_eq.trans (clearQueue_pending s)⟩

/-- Settles O14: enabled up to the lag, which with `CDC = atomic` is 0. -/
theorem synchroniserStepsAdvanceTheCopies : Obligations.SynchroniserStepsAdvanceTheCopies := by
  unfold Obligations.SynchroniserStepsAdvanceTheCopies
  intro k s hl
  constructor
  · intro hg
    exact ⟨fun lag => (execSynch_gray hg).trans (if_pos lag),
      fun beyond => (execSynch_gray hg).trans (if_neg beyond.not_ge),
      fun lag => (execSynct_gray hg).trans (if_pos lag),
      fun beyond => (execSynct_gray hg).trans (if_neg beyond.not_ge)⟩
  · intro ha
    have hc := Config.cap_pos hl
    exact ⟨fun zero => (execSynch_atomic_eq hc ha).trans (if_pos zero.le),
      fun pos => (execSynch_atomic_eq hc ha).trans (if_neg pos.not_ge),
      fun zero => (execSynct_atomic_eq hc ha).trans (if_pos zero.le),
      fun pos => (execSynct_atomic_eq hc ha).trans (if_neg pos.not_ge)⟩

/-- SYNCH and SYNCT by the whole lags, one after the other, are SYNCALL (rule R75): the first writes nothing that the
second looks at. -/
theorem runOps_wholeLags {s : State} (hh : s.head < s.cfg.cap) (ht : s.tail < s.cfg.cap) :
    runOps [.synch (s.cfg.dist s.headSeen s.head), .synct (s.cfg.dist s.tailSeen s.tail)] s = exec .syncall s := by
  set u : State := (s.setHeadRd s.head).report .quiet with hu
  have cfg : u.cfg = s.cfg := by simp [hu]
  have tail : u.tail = s.tail := by simp [hu]
  have seen : u.tailSeen = s.tailSeen := State.tailSeen_congr cfg tail (by simp [hu])
  have first : exec (.synch (s.cfg.dist s.headSeen s.head)) s = .next u := execSynch_wholeLag hh
  have second : exec (.synct (s.cfg.dist s.tailSeen s.tail)) u = .next ((u.setTailWr u.tail).report .quiet) := by
    rw [← cfg, ← tail, ← seen]
    exact execSynct_wholeLag (by rwa [cfg, tail])
  rw [runOps, first, andThen_next, runOps, second, andThen_next, tail, hu, setTailWr_report]
  rfl

/-- Settles O15: both copies are written with their originals, where there are copies. -/
theorem syncallCatchesUpCompletely : Obligations.SyncallCatchesUpCompletely := by
  unfold Obligations.SyncallCatchesUpCompletely
  refine fun s => ⟨rfl, fun hg => ?_, fun ha => ⟨State.headSeen_atomic ha, State.tailSeen_atomic ha, ?_⟩,
    runOps_wholeLags⟩
  · show execSyncall s = _
    rw [execSyncall, setHeadRd_gray hg, setTailWr_gray (s := { s with headRd := s.head }) hg]
    rfl
  · show execSyncall s = _
    rw [execSyncall, setHeadRd_atomic ha, setTailWr_atomic ha]
    rfl

/-- Settles O16: the remainders of rule R138 written out, below `C`. -/
theorem indexArithmeticStaysBelowC : Obligations.IndexArithmeticStaysBelowC := by
  unfold Obligations.IndexArithmeticStaysBelowC
  intro c a b ha hb
  have hc : 0 < c.cap := Nat.zero_lt_of_lt ha
  have hdist := dist_eq_ite ha hb
  refine ⟨inc_eq_ite ha, Config.inc_lt hc a, Config.dist_lt hc a b, Config.add_dist a hb, hdist, ?_⟩
  split at hdist <;> omega

end Sys2Proof.Safety
end

section
/-! PROOFS. The operations of the packet decoder (`41_packetdecoder.md` rules R80 to R87), one by one: FEED in each state
of the decoder, the wire rows while idle, DINIT and PUMP. -/

namespace Sys2Proof.Safety

open Sys2Proof.Machine

/-! The assembly buffer and the output buffer after a FEED. -/

/-- The slot of the assembly buffer that was written reads as the byte. -/
theorem byteAt_packet_stored {s t : State} {a : Nat} {b : Byte} (h : t.packet = s.packet.store a b) :
    t.byteAt .packet a = b :=
  State.byteAt_of_find (sp := .packet) ((congrArg (·.find a) h).trans (Memory.find_store_same _ a b))

/-- Every other slot of the assembly buffer reads as before. -/
theorem byteAt_packet_other {s t : State} {a : Nat} {b : Byte} (h : t.packet = s.packet.store a b) :
    ∀ a', a' ≠ a → t.byteAt .packet a' = s.byteAt .packet a' := fun a' ha =>
  congrArg (·.getD (Config.powerUp .packet a')) ((congrArg (·.find a') h).trans (Memory.find_store_other _ b ha))

/-- After a copy of `n` bytes the output buffer reads as the assembly buffer below `n`, and as before from there on
(rule R84). -/
theorem byteAt_outbuf_of_copy {s t : State} {n : Nat} (h : t.outbuf = copiedTo t.packet s.outbuf n) :
    (∀ a, a < n → t.byteAt .outbuf a = t.byteAt .packet a) ∧
      ∀ a, n ≤ a → t.byteAt .outbuf a = s.byteAt .outbuf a := by
  have listed (a : Nat) := copiedTo_find t.packet s.outbuf n a
  rw [← h] at listed
  refine ⟨fun a ha => State.byteAt_of_find (sp := .outbuf) ((listed a).trans (if_pos ha)), fun a ha => ?_⟩
  exact congrArg (·.getD (Config.powerUp .outbuf a)) ((listed a).trans (if_neg ha.not_gt))

/-! FEED in AwaitHeader (rule R81), by the class of the byte. -/

theorem startResult_ack (c : Config) : startResult c c.ack = .ackReceived := if_pos rfl

theorem startResult_nak {c : Config} (hl : c.legal = true) : startResult c c.nak = .nakReceived := by
  obtain ⟨-, -, -, ack_nak, -, -⟩ := Config.codes_distinct hl
  rw [startResult, if_neg ack_nak.symm, if_pos rfl]

theorem startResult_iam {c : Config} (hl : c.legal = true) : startResult c c.iam = .iamReceived := by
  obtain ⟨-, -, -, -, ack_iam, nak_iam⟩ := Config.codes_distinct hl
  rw [startResult, if_neg ack_iam.symm, if_neg nak_iam.symm, if_pos rfl]

theorem startResult_noise {c : Config} {b : Byte} (ack : b ≠ c.ack) (nak : b ≠ c.nak) (iam : b ≠ c.iam) :
    startResult c b = .inProgress := by
  rw [startResult, if_neg ack, if_neg nak, if_neg iam]

/-- A byte is noise when it is none of the four start bytes (`30_encoding.md` rule R52). -/
theorem isStartByte_eq_false_iff (c : Config) (b : Byte) :
    c.isStartByte b = false ↔ b ≠ c.hdr ∧ b ≠ c.ack ∧ b ≠ c.nak ∧ b ≠ c.iam := by
  simp [Config.isStartByte, and_assoc]

/-- A byte other than the header is answered and writes nothing. -/
theorem execFeed_other {b : Byte} {s : State} (hs : s.state = .awaitHeader) (hb : b ≠ s.cfg.hdr) :
    exec (.feed b) s = .next { s with ports := .feed (startResult s.cfg b) } :=
  feedAndReport_of ((feedByte_awaitHeader hs b).trans (feedHeader_other hb))

/-- The header byte goes to `packet[0]` and the length is awaited. -/
theorem execFeed_hdr {s : State} (hs : s.state = .awaitHeader) :
    ∃ t, exec (.feed s.cfg.hdr) s = .next t ∧
      t = { s with packet := t.packet, state := .awaitLength, ports := .feed .inProgress } ∧
      t.byteAt .packet 0 = s.cfg.hdr ∧ (∀ a, a ≠ 0 → t.byteAt .packet a = s.byteAt .packet a) :=
  ⟨_, feedAndReport_of ((feedByte_awaitHeader hs _).trans (feedHeader_hdr s)), rfl, byteAt_packet_stored rfl,
    byteAt_packet_other rfl⟩

/-- The three control codes are answered by their results and write nothing. -/
theorem execFeed_control {s : State} (hl : s.cfg.legal = true) (hs : s.state = .awaitHeader) :
    exec (.feed s.cfg.ack) s = .next { s with ports := .feed .ackReceived } ∧
    exec (.feed s.cfg.nak) s = .next { s with ports := .feed .nakReceived } ∧
    exec (.feed s.cfg.iam) s = .next { s with ports := .feed .iamReceived } := by
  obtain ⟨hdr_ack, hdr_nak, hdr_iam, -⟩ := Config.codes_distinct hl
  rw [execFeed_other hs hdr_ack.symm, execFeed_other hs hdr_nak.symm, execFeed_other hs hdr_iam.symm, startResult_ack,
    startResult_nak hl, startResult_iam hl]
  exact ⟨rfl, rfl, rfl⟩

/-- Noise is answered by InProgress and writes nothing (rule R62). -/
theorem execFeed_noise {b : Byte} {s : State} (hs : s.state = .awaitHeader) (hb : s.cfg.isStartByte b = false) :
    exec (.feed b) s = .next { s with ports := .feed .inProgress } := by
  obtain ⟨hdr, ack, nak, iam⟩ := (isStartByte_eq_false_iff _ _).1 hb
  rw [execFeed_other hs hdr, startResult_noise ack nak iam]

/-- Settles O28: the classes of the byte one by one. -/
theorem feedAwaitingAHeader : Obligations.FeedAwaitingAHeader := by
  unfold Obligations.FeedAwaitingAHeader
  intro b s hl hs
  obtain ⟨ack, nak, iam⟩ := execFeed_control hl hs
  refine ⟨rfl, ?_, ?_, ?_, ?_, fun hhdr hack hnak hiam =>
    execFeed_noise hs ((isStartByte_eq_false_iff _ _).2 ⟨hhdr, hack, hnak, hiam⟩)⟩
  · rintro rfl
    exact execFeed_hdr hs
  all_goals rintro rfl; assumption

/-- Settles O37: a wire row is defined as the FEED of its byte, and the FEED is rule R81. -/
theorem bytesOfTheLineWhileIdle : Obligations.BytesOfTheLineWhileIdle := by
  unfold Obligations.BytesOfTheLineWhileIdle
  refine fun b s hl => ⟨rfl, rfl, rfl, rfl, rfl, fun hs => ?_⟩
  obtain ⟨ack, nak, iam⟩ := execFeed_control hl hs
  exact ⟨execFeed_hdr hs, ack, nak, iam, fun noise => execFeed_noise hs (by simpa [Instr.wf] using noise)⟩

/-! FEED in the other three states (rules R82 to R84). -/

/-- Settles O29: stored in either case, and compared with `MAXPAY`. -/
theorem feedAwaitingALength : Obligations.FeedAwaitingALength := by
  unfold Obligations.FeedAwaitingALength
  intro b s hs
  have fed := (feedByte_awaitLength hs b).trans (feedLength_spec b s)
  by_cases hb : s.cfg.maxPay < b.toNat
  · rw [if_pos hb] at fed
    exact ⟨_, feedAndReport_of fed, byteAt_packet_stored rfl, byteAt_packet_other rfl, fun _ => rfl,
      fun h => absurd hb h.not_gt, fun h => absurd hb h.not_gt⟩
  · rw [if_neg hb] at fed
    refine ⟨_, feedAndReport_of fed, byteAt_packet_stored rfl, byteAt_packet_other rfl, fun h => absurd h hb,
      fun _ zero => ?_, fun _ pos => ?_⟩
    · rw [if_pos zero]
    · rw [if_neg pos]

/-- Settles O30: the bounds are the decoder's part of the invariant. -/
theorem feedAwaitingPayload : Obligations.FeedAwaitingPayload := by
  unfold Obligations.FeedAwaitingPayload
  intro b s hs
  refine ⟨fun safe => ?_, fun inside => ?_⟩
  · obtain ⟨⟨-, hlen, htwo, -⟩, hlt⟩ := (decoderInv_awaitPayload_iff hs).1 safe.decoder
    exact ⟨htwo, Nat.lt_succ_iff.1 hlt, Nat.succ_le_succ hlen, rfl⟩
  · have fed := (feedByte_awaitPayload hs b).trans (feedPayload_spec b inside)
    exact ⟨_, feedAndReport_of fed, rfl, rfl, byteAt_packet_stored rfl, byteAt_packet_other rfl⟩

/-- Settles O31: the bound is the decoder's part of the invariant; the copy is of the packet with the byte stored. -/
theorem feedAwaitingAChecksum : Obligations.FeedAwaitingAChecksum := by
  unfold Obligations.FeedAwaitingAChecksum
  intro b s hs
  refine ⟨fun safe => ?_, fun wrong inside => ?_, fun right inside hlen => ?_⟩
  · obtain ⟨⟨-, hlen, -⟩, hindex⟩ := (decoderInv_awaitChecksum_iff hs).1 safe.decoder
    exact ⟨hindex, hindex ▸ Nat.add_le_add_right hlen 2⟩
  · have fed := (feedByte_awaitChecksum hs b).trans (feedChecksum_mismatch inside wrong)
    exact ⟨_, feedAndReport_of fed, rfl, byteAt_packet_stored rfl, byteAt_packet_other rfl⟩
  · subst right
    have fed := (feedByte_awaitChecksum hs _).trans (feedChecksum_match inside hlen)
    exact ⟨_, feedAndReport_of fed, rfl, byteAt_packet_stored rfl, byteAt_packet_other rfl, byteAt_outbuf_of_copy rfl⟩

/-! DINIT and PUMP. -/

/-- Settles O33: DINIT writes three constants. -/
theorem dinitMakesTheDecoderIdle : Obligations.DinitMakesTheDecoderIdle := by
  unfold Obligations.DinitMakesTheDecoderIdle
  refine fun s => ⟨rfl, rfl, fun t h => ?_⟩
  cases h
  rfl

/-- A GET that takes a byte and a FEED of that byte are one PUMP: the FEED does not look at what the GET shows at the
ports (rule R87). -/
theorem execPump_of_get_feed {s u v : State} {x : Byte} {r : DecodeResult} (get : exec .get s = .next u)
    (ok : u.ports = .get true x) (feed : exec (.feed x) u = .next v) (result : v.result = some r) :
    exec .pump s = .next { v with ports := .pump true r } := by
  obtain ⟨-, rfl⟩ | ⟨seen, inside, rfl⟩ := execGet_cases get
  · cases ok
  · cases ok
    obtain ⟨q, w, fed, rfl⟩ := feedAndReport_eq_next.1 (feedAndReport_report s.ports feed)
    cases result
    exact execPump_takes (u := w) seen inside fed

/-- A FEED that completes has a result. -/
theorem execFeed_result {b : Byte} {s t : State} (h : exec (.feed b) s = .next t) : ∃ r, t.result = some r := by
  obtain ⟨r, u, -, rfl⟩ := feedAndReport_eq_next.1 h
  exact ⟨r, rfl⟩

/-- Settles O34: from a safe state with a byte visible GET takes it, and FEED completes in the safe state after it. -/
theorem pumpIsGetThenFeed : Obligations.PumpIsGetThenFeed := by
  unfold Obligations.PumpIsGetThenFeed
  refine fun s => ⟨rfl, execPump_empty, fun u v x r => execPump_of_get_feed, fun safe seen => ?_⟩
  obtain ⟨hl, -, ⟨⟨n, hn⟩, -⟩, -⟩ := inv_iff.1 safe
  have get := execGet_takes seen (hn.tail ▸ Nat.mod_lt _ (Config.cap_pos hl))
  obtain ⟨-, -, -, decoder⟩ := inv_iff.1 (exec_inv (i := .get) safe get)
  obtain ⟨v, feed⟩ := decoder.feedAndReport_completes (s.byteAt .buf s.tail)
  obtain ⟨r, result⟩ := execFeed_result feed
  exact ⟨_, v, r, get, rfl, feed, result, execPump_of_get_feed get rfl feed result⟩

end Sys2Proof.Safety
end

section
/-! PROOFS. The decoder as a whole (`41_packetdecoder.md` rules R88, R92): its transition table, whole packets, and
packets with one wrong byte. -/

namespace Sys2Proof.Safety

open Sys2Proof.Machine

/-! The transition table. -/

/-- The row of the table of rule R88 for a byte: the decoder's next state and the result. -/
def transition (s : State) (b : Byte) : DecoderState × DecodeResult :=
  match s.state with
  | .awaitHeader => if b = s.cfg.hdr then (.awaitLength, .inProgress) else (.awaitHeader, startResult s.cfg b)
  | .awaitLength =>
    if s.cfg.maxPay < b.toNat then (.awaitHeader, .sizeError)
    else (if b = 0 then .awaitChecksum else .awaitPayload, .inProgress)
  | .awaitPayload =>
    (if s.writeIndex + 1 = (s.byteAt .packet 1).toNat + 2 then .awaitChecksum else .awaitPayload, .inProgress)
  | .awaitChecksum => (.awaitHeader, if b = s.checksum then .packetReceived else .checksumError)

/-- A FEED that completes follows the table. -/
theorem feedByte_transition {b : Byte} {s u : State} {r : DecodeResult} (h : feedByte b s = .next (r, u)) :
    transition s b = (u.state, r) := by
  obtain ⟨hs, hb, rfl, rfl⟩ | ⟨hs, hb, rfl, rfl⟩ | ⟨hs, hb, rfl, rfl⟩ | ⟨hs, hb, rfl, rfl⟩ | ⟨hs, -, rfl, rfl⟩ |
    ⟨hs, -, hb, rfl, rfl⟩ | ⟨hs, -, hb, rfl, -, rfl⟩ := feedByte_cases h
  · simp only [transition, hs, if_pos hb]
  · simp only [transition, hs, if_neg hb, startResult]
  · simp only [transition, hs, if_pos hb]
  · simp only [transition, hs, if_neg hb.not_gt]
  · simp only [transition, hs]
  · simp only [transition, hs, if_neg hb]
  · simp only [transition, hs, if_pos hb]

/-- From a safe decoder every FEED completes and follows the table (rule R88). -/
theorem DecoderSafe.feed_follows_table {s : State} (h : DecoderSafe s) (b : Byte) :
    ∃ t, exec (.feed b) s = .next t ∧
      ∀ st r, transition s b = (st, r) → t.state = st ∧ t.result = some r := by
  obtain ⟨r, u, hu⟩ := h.feed_completes b
  refine ⟨_, feedAndReport_of hu, fun st q row => ?_⟩
  rw [feedByte_transition hu] at row
  cases row
  exact ⟨rfl, rfl⟩

/-! Whole packets. -/

/-- A packet of a legal declared length takes `L + 3` FEEDs, whatever its bytes: the last of them is the terminal
event (rule R88). -/
theorem feedAll_packet {len : Byte} {body : List Byte} {s : State} (hl : s.cfg.legal = true)
    (hs : s.state = .awaitHeader) (hlen : len.toNat ≤ s.cfg.maxPay) (hbody : body.length = len.toNat + 1) :
    ∃ r t, feedAll (s.cfg.hdr :: len :: body) s = .next (List.replicate (len.toNat + 2) .inProgress ++ [r], t) ∧
      (r = .packetReceived ∨ r = .checksumError) ∧ t.state = .awaitHeader := by
  obtain rfl | ⟨payload, last, rfl⟩ := List.eq_nil_or_concat body
  · cases hbody
  · have length : payload.length = len.toNat := by simpa using hbody
    have bytes : s.cfg.hdr :: len :: (payload ++ [last]) = frameHead s.cfg payload ++ [last] := by
      rw [frameHead, length, BitVec.ofNat_toNat, BitVec.setWidth_eq]
      rfl
    rw [List.concat_eq_append, bytes, ← length]
    rw [← length] at hlen
    by_cases right : last = xorBytes payload
    · obtain ⟨t, fed, idle, -⟩ := feedAll_frame hl hs hlen
      rw [frame_eq, ← right] at fed
      exact ⟨_, t, fed, .inl rfl, idle⟩
    · obtain ⟨t, fed, idle, -⟩ := feedAll_corrupt hl hs hlen right
      exact ⟨_, t, fed, .inr rfl, idle⟩

/-- Settles O32: each row is the table's by its conditions; the rest is DINIT, reset and whole packets. -/
theorem decoderTransitionTable : Obligations.DecoderTransitionTable := by
  unfold Obligations.DecoderTransitionTable
  intro s safe
  obtain ⟨hl, -, -, decoder⟩ := inv_iff.1 safe
  obtain ⟨hdr_ack, hdr_nak, hdr_iam, -⟩ := Config.codes_distinct hl
  refine ⟨fun b => ?_, ⟨_, rfl, rfl⟩, ⟨_, step_of_rst hl rfl, rfl⟩, fun hs len body => feedAll_packet hl hs⟩
  obtain ⟨t, fed, row⟩ := decoder.feed_follows_table b
  refine ⟨t, fed, ?_, ?_, ?_, ?_, ?_, ?_, ?_, ?_, ?_, ?_, ?_, ?_⟩ <;> intro hs <;> simp only [transition, hs] at row
  · intro hdr
    exact row _ _ (if_pos hdr)
  · rintro rfl
    exact row _ _ ((if_neg hdr_ack.symm).trans (by rw [startResult_ack]))
  · rintro rfl
    exact row _ _ ((if_neg hdr_nak.symm).trans (by rw [startResult_nak hl]))
  · rintro rfl
    exact row _ _ ((if_neg hdr_iam.symm).trans (by rw [startResult_iam hl]))
  · intro noise
    obtain ⟨hdr, ack, nak, iam⟩ := (isStartByte_eq_false_iff _ _).1 noise
    exact row _ _ ((if_neg hdr).trans (by rw [startResult_noise ack nak iam]))
  · intro above
    exact row _ _ (if_pos above)
  · intro zero
    exact row _ _ ((if_neg (by omega)).trans (by rw [if_pos (BitVec.eq_of_toNat_eq zero)]))
  · intro pos legal
    exact row _ _ ((if_neg legal.not_gt).trans (by rw [if_neg (by rintro rfl; simp at pos)]))
  · intro more
    exact row _ _ (by rw [if_neg more])
  · intro last
    exact row _ _ (by rw [if_pos last])
  · intro right
    exact row _ _ (by rw [if_pos right])
  · intro wrong
    exact row _ _ (by rw [if_neg wrong])

/-! Packets with one wrong byte. -/

/-- Replacing one byte of a list changes the exclusive-or of all of them (rule R92). -/
theorem xorBytes_set_ne {l : List Byte} {k : Nat} {b : Byte} (hk : k < l.length) (hb : b ≠ l[k]) :
    xorBytes (l.set k b) ≠ xorBytes l := by
  induction l generalizing k with
  | nil => cases hk
  | cons a l ih =>
    cases k with
    | zero => exact mt (BitVec.xor_left_inj _).1 hb
    | succ k => exact mt (BitVec.xor_right_inj _).1 (ih (Nat.lt_of_succ_lt_succ hk) hb)

/-- Settles O41: a wrong payload byte makes the checksum byte wrong for what is received. -/
theorem corruptionYieldsChecksumError : Obligations.CorruptionYieldsChecksumError := by
  unfold Obligations.CorruptionYieldsChecksumError
  refine fun s payload hl hs hp => ⟨fun x hx => feedAll_corrupt hl hs hp hx, fun k hk b hb => ?_⟩
  have length : (payload.set k b).length = payload.length := List.length_set
  have corrupt := feedAll_corrupt hl hs (length.trans_le hp) (xorBytes_set_ne hk hb).symm
  rw [frameHead, length] at corrupt
  exact corrupt

end Sys2Proof.Safety
end

section
/-! PROOFS. The operations of the packet encoder (`42_packetencoder.md` rules R95, R96, R99): SEND in full, the three
control codes, and the round trip from one block's SEND to another block's idle decoder. -/

namespace Sys2Proof.Safety

open Sys2Proof.Machine

/-! SEND at its two sides of `MAXPAY`, and its checksum byte as rule R54 folds it. -/

/-- A payload that fits is handed to the transport as one framed packet (rule R95). -/
theorem execSend_fits {payload : List Byte} {s : State} (hp : payload.length ≤ s.cfg.maxPay) :
    execSend payload s = .next (emit (frame s.cfg payload) s) := if_pos hp

/-- A payload above `MAXPAY` is refused by name (rule R95). -/
theorem execSend_tooLong {payload : List Byte} {s : State} (hp : s.cfg.maxPay < payload.length) :
    execSend payload s = .refused .payloadTooLong := if_neg hp.not_ge

/-- What SEND adds to the record is the framed packet (rules R22, R95). -/
theorem sent_eq_frame {payload sent : List Byte} {e u : State} (send : exec (.send payload) e = .next u)
    (log : u.txlog = e.txlog ++ sent) : sent = frame e.cfg payload := by
  obtain ⟨-, rfl⟩ := execSend_cases send
  exact (List.append_cancel_left log).symm

/-- An exclusive-or accumulated from the left, starting at `a` (rule R54). -/
theorem foldl_xor_eq (a : Byte) (l : List Byte) : l.foldl (· ^^^ ·) a = a ^^^ xorBytes l := by
  induction l generalizing a with
  | nil => exact BitVec.xor_zero.symm
  | cons b l ih => exact (ih (a ^^^ b)).trans (BitVec.xor_assoc a b (xorBytes l))

/-- The framed packet with its checksum accumulated byte by byte (rules R50, R54). -/
theorem frame_eq_foldl (c : Config) (payload : List Byte) :
    frame c payload =
      c.hdr :: BitVec.ofNat 8 payload.length :: payload ++ [payload.foldl (· ^^^ ·) 0] := by
  have checksum : payload.foldl (· ^^^ ·) 0 = xorBytes payload := (foldl_xor_eq 0 payload).trans BitVec.zero_xor
  rw [checksum]
  rfl

/-- Settles O40: what was sent is the framed packet of the payload, and the idle decoder receives every one. -/
theorem sendThenFeedRoundTrip : Obligations.SendThenFeedRoundTrip := by
  unfold Obligations.SendThenFeedRoundTrip
  intro e u s payload sent hl same hp send log hs
  obtain rfl : sent = frame s.cfg payload := same ▸ sent_eq_frame send log
  obtain ⟨t, fed, idle, out⟩ := feedAll_frame hl hs hp
  exact ⟨t, fed, frame_length s.cfg payload, out, idle⟩

/-- Settles O42: the words are the encoder's row; the two outcomes are the payload that fits and the one above
`MAXPAY`. -/
theorem sendFramesThePayload : Obligations.SendFramesThePayload := by
  unfold Obligations.SendFramesThePayload
  intro payload s
  refine ⟨rfl, fun hp => ⟨_, rfl, ?_, ?_⟩, execSend_tooLong⟩ <;> rw [← frame_eq_foldl]
  · exact frame_length s.cfg payload
  · exact execSend_fits hp

/-- Settles O43: the encoder's three rows, and one `emit` of one byte for each selector. -/
theorem sendctlSendsOneControlCode : Obligations.SendctlSendsOneControlCode := by
  unfold Obligations.SendctlSendsOneControlCode
  exact fun _ => ⟨rfl, rfl, rfl, rfl, rfl, rfl⟩

end Sys2Proof.Safety
end

section
/-! PROOFS. Simultaneous operations (`60_exceptions.md` rule R108): with `CDC = gray` a PUT and an operation of the
consumer do the same in either order, because neither looks at what the other writes. -/

namespace Sys2Proof.Safety

open Sys2Proof.Machine

/-- The block `s` with what the producer writes taken from `p`: the queue storage, `head` and the ports (rules R11,
R26). -/
def withProducer (p s : State) : State := { s with buf := p.buf, head := p.head, ports := p.ports }

/-- With `CDC = gray` the read domain sees its own copy, whatever the producer wrote (rule R14). -/
theorem withProducer_headSeen {s : State} (hg : s.cfg.cdc = .gray) (p : State) :
    (withProducer p s).headSeen = s.headSeen :=
  (State.headSeen_gray (s := withProducer p s) hg).trans (State.headSeen_gray hg).symm

/-- FEED and every wire row do not look at what the producer writes (rule R26). -/
theorem feedAndReport_withProducer {b : Byte} {s t : State} (p : State) (h : feedAndReport b s = .next t) :
    feedAndReport b (withProducer p s) = .next ((withProducer p t).report t.ports) := by
  obtain ⟨r, u, hu, rfl⟩ := feedAndReport_eq_next.1 h
  rw [feedAndReport_of (feedByte_congr (t := withProducer p s) hu rfl rfl rfl rfl rfl rfl), feedByte_frame hu]
  rfl

/-- An operation of the consumer looks at nothing that the producer writes but a byte the read domain already sees:
where that byte is the same, the operation does the same. -/
theorem exec_withProducer {i : Instr} {s t : State} (p : State) (hi : agentOf i = .consumer) (hg : s.cfg.cdc = .gray)
    (visible : s.tail ≠ s.headSeen → p.byteAt .buf s.tail = s.byteAt .buf s.tail) (h : exec i s = .next t) :
    exec i (withProducer p s) = .next ((withProducer p t).report t.ports) := by
  have view := withProducer_headSeen hg p
  have byte : s.tail ≠ s.headSeen → (withProducer p s).byteAt .buf s.tail = s.byteAt .buf s.tail := fun seen =>
    (State.byteAt_congr (s := p) (sp := .buf) rfl _).trans (visible seen)
  cases i with
  | get =>
    obtain ⟨empty, rfl⟩ | ⟨seen, inside, rfl⟩ := execGet_cases h
    · exact execGet_empty (s := withProducer p s) (empty.trans view.symm)
    · rw [← byte seen]
      exact execGet_takes (s := withProducer p s) (view.symm ▸ seen) inside
  | pump =>
    obtain ⟨empty, rfl⟩ | ⟨seen, inside, r, u, hu, rfl⟩ := execPump_cases h
    · exact execPump_empty (s := withProducer p s) (empty.trans view.symm)
    · have fed := feedByte_congr (t := { withProducer p s with tail := s.cfg.inc s.tail }) hu rfl rfl rfl rfl rfl rfl
      rw [← byte seen] at fed
      rw [feedByte_frame hu]
      exact execPump_takes (s := withProducer p s) (view.symm ▸ seen) inside fed
  | send payload =>
    obtain ⟨fits, rfl⟩ := execSend_cases h
    exact if_pos fits
  | dinit | sendctlAck | sendctlNak | sendctlIam => cases h; rfl
  | dat b => exact absurd h (execDat_stops (b := b) (s := s))
  | feed b | packet | ack | nak | iam | noise b => exact feedAndReport_withProducer p h
  | put b | qinit | synch k | synct k | syncall => cases hi

/-- A PUT looks at the configuration, the queue storage, `head` and what the write domain sees of `tail`, and writes
the producer's part alone (`40_bytequeue.md` rule R70). -/
theorem execPut_congr {b : Byte} {s t u : State} (cfg : t.cfg = s.cfg) (buf : t.buf = s.buf) (head : t.head = s.head)
    (seen : t.tailSeen = s.tailSeen) (h : execPut b s = .next u) : execPut b t = .next (withProducer u t) := by
  obtain ⟨full, rfl⟩ | ⟨room, inside, rfl⟩ := execPut_cases h
  · rw [execPut_full (by rwa [cfg, head, seen]), withProducer, ← buf, ← head]
  · rw [execPut_stores (by rwa [cfg, head, seen]) (by rwa [cfg, head]), withProducer, ← cfg, ← buf, ← head]

/-- An operation of the consumer leaves everything that a PUT looks at alone (rules R14, R26). -/
theorem consumer_keeps_putView {i : Instr} {s v : State} (hi : agentOf i = .consumer) (hg : s.cfg.cdc = .gray)
    (h : exec i s = .next v) :
    v.cfg = s.cfg ∧ v.buf = s.buf ∧ v.head = s.head ∧ v.tailSeen = s.tailSeen := by
  have frame : WritesOnlyOwnedBy .consumer s v := hi ▸ exec_writesOnlyOwnedBy h
  have cfg : v.cfg = s.cfg := by rw [frame]
  have copy : v.tailWr = s.tailWr := by rw [frame]
  refine ⟨cfg, by rw [frame], by rw [frame], ?_⟩
  rw [State.tailSeen_gray hg, State.tailSeen_gray (by rwa [cfg]), copy]

/-- A PUT does not overwrite the next byte that the read domain sees (`20_memory.md` rule R41). -/
theorem QueueInv.put_keeps_visible {b : Byte} {s u : State} (hc : 0 < s.cfg.cap) (hq : QueueInv s)
    (seen : s.tail ≠ s.headSeen) (h : execPut b s = .next u) : u.byteAt .buf s.tail = s.byteAt .buf s.tail := by
  obtain ⟨pos, -⟩ := QueueInv.written_at_tail hc hq seen
  obtain ⟨⟨n, hn⟩, -⟩ := hq
  have slot : s.tail ≠ s.head := by
    have first : pendingSlot s 0 = s.tail := by rw [hn.pendingSlot, hn.tail, Nat.add_zero]
    exact first ▸ hn.pendingSlot_ne_head hc pos
  obtain ⟨-, rfl⟩ | ⟨-, -, rfl⟩ := execPut_cases h
  · rfl
  · exact (byteAt_buf_store rfl _).trans (if_neg slot)

/-- Where a PUT and an operation of the consumer both complete, each also completes after the other with the status it
had alone, and both orders join the producer's part of the one with the rest of the other (rule R108). -/
theorem put_consumer_square {b : Byte} {i : Instr} {s u v : State} (hc : 0 < s.cfg.cap) (hg : s.cfg.cdc = .gray)
    (hq : QueueInv s) (hi : agentOf i = .consumer) (hput : exec (.put b) s = .next u) (hcons : exec i s = .next v) :
    exec i u = .next ((withProducer u v).report v.ports) ∧ exec (.put b) v = .next (withProducer u v) := by
  have produced : u = withProducer u s := execPut_frame hput
  obtain ⟨cfg, buf, head, seen⟩ := consumer_keeps_putView hi hg hcons
  have after := exec_withProducer u hi hg (fun nonempty => hq.put_keeps_visible hc nonempty hput) hcons
  rw [← produced] at after
  exact ⟨after, execPut_congr cfg buf head seen hput⟩

/-- An operation of the consumer that completes after a PUT completes without it. -/
theorem consumer_completes_before_put {b : Byte} {i : Instr} {s u u' : State} (hc : 0 < s.cfg.cap)
    (hg : s.cfg.cdc = .gray) (hq : QueueInv s) (hi : agentOf i = .consumer) (hput : exec (.put b) s = .next u)
    (hcons : exec i u = .next u') : ∃ v, exec i s = .next v := by
  have produced : u = withProducer u s := execPut_frame hput
  have cfg : u.cfg = s.cfg := by rw [produced]; rfl
  have tail : u.tail = s.tail := by rw [produced]; rfl
  have view : u.headSeen = s.headSeen := by rw [produced]; exact withProducer_headSeen hg u
  have restored : withProducer s u = s := by rw [produced]; rfl
  have before := exec_withProducer s hi (cfg ▸ hg)
    (fun seen => by
      rw [tail, view] at seen
      rw [tail]
      exact (hq.put_keeps_visible hc seen hput).symm)
    hcons
  rw [restored] at before
  exact ⟨_, before⟩

/-- A PUT that completes after an operation of the consumer completes without it. -/
theorem put_completes_before_consumer {b : Byte} {i : Instr} {s v v' : State} (hg : s.cfg.cdc = .gray)
    (hi : agentOf i = .consumer) (hcons : exec i s = .next v) (hput : exec (.put b) v = .next v') :
    ∃ u, exec (.put b) s = .next u := by
  obtain ⟨cfg, buf, head, seen⟩ := consumer_keeps_putView hi hg hcons
  exact ⟨_, execPut_congr cfg.symm buf.symm head.symm seen.symm hput⟩

/-- Settles O23: whichever order completes, both operations complete from the start, and then the square closes. -/
theorem putCommutesWithTheConsumer : Obligations.PutCommutesWithTheConsumer := by
  unfold Obligations.PutCommutesWithTheConsumer
  intro b i s hl hg hq hi
  have hc := Config.cap_pos hl
  refine ⟨fun u u' hput hcons => ?_, fun v v' hcons hput => ?_⟩
  · obtain ⟨v, alone⟩ := consumer_completes_before_put hc hg hq hi hput hcons
    obtain ⟨consumer_last, put_last⟩ := put_consumer_square hc hg hq hi hput alone
    cases consumer_last.symm.trans hcons
    exact ⟨v, _, alone, put_last, rfl, rfl, rfl⟩
  · obtain ⟨u, alone⟩ := put_completes_before_consumer hg hi hcons hput
    obtain ⟨consumer_last, put_last⟩ := put_consumer_square hc hg hq hi alone hcons
    cases put_last.symm.trans hput
    exact ⟨u, _, alone, consumer_last, rfl, rfl, rfl⟩

end Sys2Proof.Safety
end

section
/-! PROOFS. The four errors (`60_exceptions.md` rules R100, R109, R110): which operations report a status, and what the
block is after a status that is an error. -/

namespace Sys2Proof.Safety

open Sys2Proof.Machine

/-- Where the status that `t` shows comes from, when an operation took the block from `s` to `t`: a PUT, a GET, a PUMP
or a FEED; every other operation shows none (rule R23). -/
inductive StatusSource (s t : State) : Prop
  | put (b : Byte) (ran : execPut b s = .next t)
  | get (ran : execGet s = .next t)
  | pump (ran : execPump s = .next t)
  | feed (b : Byte) (ran : feedAndReport b s = .next t)
  | none (noPut : t.putOk = none) (noGet : t.getOk = none) (noResult : t.result = none)

/-- Every operation that completes has one of the sources. -/
theorem exec_statusSource {i : Instr} {s t : State} (h : exec i s = .next t) : StatusSource s t := by
  cases i with
  | put b => exact .put b h
  | get => exact .get h
  | pump => exact .pump h
  | feed b | packet | ack | nak | iam | noise b => exact .feed _ h
  | send payload =>
    obtain ⟨-, rfl⟩ := execSend_cases h
    exact .none rfl rfl rfl
  | synch k =>
    obtain ⟨-, rfl⟩ := execSynch_cases h
    exact .none rfl rfl rfl
  | synct k =>
    obtain ⟨-, rfl⟩ := execSynct_cases h
    exact .none rfl rfl rfl
  | qinit | dinit | syncall | sendctlAck | sendctlNak | sendctlIam => cases h; exact .none rfl rfl rfl
  | dat b => exact absurd h (execDat_stops (b := b) (s := s))

/-- QueueFull writes the ports alone (rules R70, R109). -/
theorem StatusSource.frame_of_queueFull {s t : State} (h : StatusSource s t) (full : t.putOk = some false) :
    t = { s with ports := t.ports } := by
  cases h with
  | put b ran =>
    obtain ⟨-, rfl⟩ | ⟨-, -, rfl⟩ := execPut_cases ran
    · rfl
    · cases full
  | get ran => obtain ⟨-, rfl⟩ | ⟨-, -, rfl⟩ := execGet_cases ran <;> cases full
  | pump ran => obtain ⟨-, rfl⟩ | ⟨-, -, r, u, -, rfl⟩ := execPump_cases ran <;> cases full
  | feed b ran => obtain ⟨r, u, -, rfl⟩ := feedAndReport_eq_next.1 ran; cases full
  | none noPut _ _ => cases noPut.symm.trans full

/-- QueueEmpty writes the ports alone and, in a GET, the model's counter of draws (rules R71, R87, R109). -/
theorem StatusSource.frame_of_queueEmpty {s t : State} (h : StatusSource s t) (empty : t.getOk = some false) :
    t = { s with ports := t.ports, draws := t.draws } := by
  cases h with
  | put b ran => obtain ⟨-, rfl⟩ | ⟨-, -, rfl⟩ := execPut_cases ran <;> cases empty
  | get ran =>
    obtain ⟨-, rfl⟩ | ⟨-, -, rfl⟩ := execGet_cases ran
    · rfl
    · cases empty
  | pump ran =>
    obtain ⟨-, rfl⟩ | ⟨-, -, r, u, -, rfl⟩ := execPump_cases ran
    · rfl
    · cases empty
  | feed b ran => obtain ⟨r, u, -, rfl⟩ := feedAndReport_eq_next.1 ran; cases empty
  | none _ noGet _ => cases noGet.symm.trans empty

/-- A result other than InProgress is that of a byte fed, before which at most `tail` moved (rules R80, R87). -/
theorem StatusSource.fed_of_result {s t : State} {r : DecodeResult} (h : StatusSource s t) (shown : t.result = some r)
    (done : r ≠ .inProgress) :
    ∃ b tail u p, feedByte b { s with tail := tail } = .next (r, u) ∧ t = u.report p := by
  cases h with
  | put b ran => obtain ⟨-, rfl⟩ | ⟨-, -, rfl⟩ := execPut_cases ran <;> cases shown
  | get ran => obtain ⟨-, rfl⟩ | ⟨-, -, rfl⟩ := execGet_cases ran <;> cases shown
  | pump ran =>
    obtain ⟨-, rfl⟩ | ⟨-, -, q, u, fed, rfl⟩ := execPump_cases ran <;> cases shown
    · exact absurd rfl done
    · exact ⟨_, _, u, _, fed, rfl⟩
  | feed b ran =>
    obtain ⟨q, u, fed, rfl⟩ := feedAndReport_eq_next.1 ran
    cases shown
    exact ⟨b, s.tail, u, _, fed, rfl⟩
  | none _ _ noResult => cases noResult.symm.trans shown

/-- A byte that starts no framed packet is no error (rule R81). -/
theorem startResult_ne_error (c : Config) (b : Byte) :
    startResult c b ≠ .sizeError ∧ startResult c b ≠ .checksumError := by
  unfold startResult
  split_ifs <;> decide

/-- SizeError is the answer to a length byte above `MAXPAY`, which is stored (rules R82, R109). -/
theorem feedByte_sizeError {b : Byte} {s u : State} (h : feedByte b s = .next (.sizeError, u)) :
    s.state = .awaitLength ∧ s.cfg.maxPay < b.toNat ∧
      u = { s with packet := s.packet.store 1 b, state := .awaitHeader } := by
  obtain ⟨-, -, hr, -⟩ | ⟨-, -, -, hr⟩ | ⟨hs, above, -, hu⟩ | ⟨-, -, hr, -⟩ | ⟨-, -, hr, -⟩ | ⟨-, -, -, hr, -⟩ |
    ⟨-, -, -, hr, -⟩ := feedByte_cases h
  case inr.inl => exact absurd hr.symm (startResult_ne_error s.cfg b).1
  case inr.inr.inl => exact ⟨hs, above, hu⟩
  all_goals cases hr

/-- ChecksumError is the answer to a checksum byte that differs from the running one, and is stored (rules R84,
R109). -/
theorem feedByte_checksumError {b : Byte} {s u : State} (h : feedByte b s = .next (.checksumError, u)) :
    s.state = .awaitChecksum ∧ b ≠ s.checksum ∧
      u = { s with packet := s.packet.store s.writeIndex b, state := .awaitHeader } := by
  obtain ⟨-, -, hr, -⟩ | ⟨-, -, -, hr⟩ | ⟨-, -, hr, -⟩ | ⟨-, -, hr, -⟩ | ⟨-, -, hr, -⟩ | ⟨hs, -, wrong, -, hu⟩ |
    ⟨-, -, -, hr, -⟩ := feedByte_cases h
  case inr.inl => exact absurd hr.symm (startResult_ne_error s.cfg b).2
  case inr.inr.inr.inr.inr.inl => exact ⟨hs, wrong, hu⟩
  all_goals cases hr

/-- Settles O35: the queue's errors by the operation that reports them, the decoder's by the byte that was fed. -/
theorem errorsAreLocalAndPrecise : Obligations.ErrorsAreLocalAndPrecise := by
  unfold Obligations.ErrorsAreLocalAndPrecise
  intro i s t h
  have source := exec_statusSource h
  refine ⟨source.frame_of_queueFull, source.frame_of_queueEmpty, fun shown => ?_, fun shown => ?_⟩
  · obtain ⟨b, tail, u, p, fed, rfl⟩ := source.fed_of_result shown (by decide)
    obtain ⟨hs, above, rfl⟩ := feedByte_sizeError fed
    refine ⟨hs, rfl, ?_, byteAt_packet_other rfl⟩
    rwa [byteAt_packet_stored (s := s) rfl]
  · obtain ⟨b, tail, u, p, fed, rfl⟩ := source.fed_of_result shown (by decide)
    obtain ⟨hs, wrong, rfl⟩ := feedByte_checksumError fed
    refine ⟨hs, rfl, ?_, byteAt_packet_other rfl⟩
    rwa [byteAt_packet_stored (s := s) rfl]

end Sys2Proof.Safety
end

section
/-! PROOFS. Reset and hazards (`70_reset_and_hazards.md` rules R120, R122, R129): the two initialisers write disjoint
state, the reset input is both of them at once, and the output buffer is written by a matching checksum byte alone. -/

namespace Sys2Proof.Safety

open Sys2Proof.Machine

/-! QINIT and DINIT. -/

/-- QINIT writes the four indices alone (rule R72). -/
theorem clearQueue_frame (s : State) :
    clearQueue s =
      { s with head := 0, tail := 0, headRd := (clearQueue s).headRd, tailWr := (clearQueue s).tailWr } := by
  rw [clearQueue, State.setBothCopies_frame]

/-- Clearing the queue and putting the decoder back to idle write disjoint state (rule R122). -/
theorem clearQueue_idleDecoder (s : State) : clearQueue (idleDecoder s) = idleDecoder (clearQueue s) := by
  rw [clearQueue_frame (idleDecoder s), clearQueue_frame s, clearQueue_headRd, clearQueue_tailWr, clearQueue_headRd,
    clearQueue_tailWr]
  rfl

/-- Settles O45: queue and decoder are written apart, and both orders end with quiet ports. -/
theorem initialisersCommute : Obligations.InitialisersCommute := by
  unfold Obligations.InitialisersCommute
  refine fun s => ⟨(idleDecoder (clearQueue s)).report .quiet, rfl, ?_⟩
  have last : runOps [.dinit, .qinit] s = .next ((clearQueue ((idleDecoder s).report .quiet)).report .quiet) := rfl
  rw [last, clearQueue_report, clearQueue_idleDecoder]
  rfl

/-- The reset input writes the indices, the decoder's registers, the transmission record and the ports (rule R120). -/
theorem hardwareReset_frame (s : State) :
    hardwareReset s =
      { s with head := 0, tail := 0, headRd := (hardwareReset s).headRd, tailWr := (hardwareReset s).tailWr,
               state := .awaitHeader, writeIndex := 0, checksum := 0, txlog := [], ports := .quiet } := by
  rw [hardwareReset, clearQueue_frame]
  rfl

/-- Settles O2: the reset input does to the queue what QINIT does, and to the decoder what DINIT does. -/
theorem resetInputIsQinitAndDinitTogether : Obligations.ResetInputIsQinitAndDinitTogether := by
  unfold Obligations.ResetInputIsQinitAndDinitTogether
  intro s rest legal front
  have cleared := hardwareReset_sameQueue { s with inputs := rest }
  refine ⟨_, _, _, step_of_rst legal front, hardwareReset_frame _, ?_, ?_, (clearQueue_ring _).congr cleared,
    rfl, rfl, rfl⟩
  · exact (State.headSeen_congr cleared.cfg cleared.head cleared.headRd).trans (clearQueue_headSeen _)
  · exact (State.tailSeen_congr cleared.cfg cleared.tail cleared.tailWr).trans (clearQueue_tailSeen _)

/-! The output buffer. -/

/-- A byte fed that completes no packet leaves the output buffer alone (rules R20, R84). -/
theorem feedByte_keeps_outbuf {b : Byte} {s u : State} {r : DecodeResult} (h : feedByte b s = .next (r, u))
    (hr : r ≠ .packetReceived) : u.outbuf = s.outbuf := by
  obtain ⟨-, -, -, rfl⟩ | ⟨-, -, rfl, -⟩ | ⟨-, -, -, rfl⟩ | ⟨-, -, -, rfl⟩ | ⟨-, -, -, rfl⟩ | ⟨-, -, -, -, rfl⟩ |
    ⟨-, -, -, received, -⟩ := feedByte_cases h
  case inr.inr.inr.inr.inr.inr => exact absurd received hr
  all_goals rfl

/-- The output buffer is the consumer's: no other agent writes it (rules R7, R20). -/
theorem exec_keeps_outbuf_of_not_consumer {i : Instr} {s t : State} (h : exec i s = .next t)
    (hi : agentOf i ≠ .consumer) : t.outbuf = s.outbuf := by
  have owned := exec_writesOnlyOwnedBy h
  generalize agentOf i = a at hi owned
  cases a with
  | consumer => exact absurd rfl hi
  | producer | headSynchroniser | tailSynchroniser | bothSynchronisers | initialiser => rw [owned]

/-- The other agents never write the output buffer, and of the consumer's operations only one that feeds a byte and
returns PacketReceived writes it (rules R7, R20, R129). -/
theorem exec_keeps_outbuf {i : Instr} {s t : State} (h : exec i s = .next t)
    (hr : t.result ≠ some .packetReceived) : t.outbuf = s.outbuf := by
  cases i with
  | put b | qinit | synch k | synct k | syncall => exact exec_keeps_outbuf_of_not_consumer h nofun
  | get => obtain ⟨-, rfl⟩ | ⟨-, -, rfl⟩ := execGet_cases h <;> rfl
  | pump =>
    obtain ⟨-, rfl⟩ | ⟨-, -, r, u, fed, rfl⟩ := execPump_cases h
    · rfl
    · exact (feedByte_keeps_outbuf fed (mt (congrArg some) hr) :)
  | feed b | packet | ack | nak | iam | noise b =>
    obtain ⟨r, u, fed, rfl⟩ := feedAndReport_eq_next.1 h
    exact (feedByte_keeps_outbuf fed (mt (congrArg some) hr) :)
  | send payload =>
    obtain ⟨-, rfl⟩ := execSend_cases h
    rfl
  | dinit | sendctlAck | sendctlNak | sendctlIam => cases h; rfl
  | dat b => exact absurd h (execDat_stops (b := b) (s := s))

/-- Settles O36: the port reads the output buffer and nothing else. -/
theorem outputBufferIsStable : Obligations.OutputBufferIsStable := by
  unfold Obligations.OutputBufferIsStable
  intro i s t h hr
  have kept := exec_keeps_outbuf h hr
  exact ⟨kept, State.byteAt_congr (sp := .outbuf) kept⟩

end Sys2Proof.Safety
end
